-- ==== Sys2Proof/Word.lean ====
section
/-! DEFINITION. The words of the block and the value states of spec 00_scope.md R10: a value of `w` bits that is
either known or X (unknown, poisoned). -/

namespace Sys2Proof

/-- A 32-bit register, counter or lane content (R7: `LANE_W`, `CNT_W`). -/
abbrev Word := BitVec 32

/-- A 256-bit wide-register content (R7: `WIDE_W`). -/
abbrev WideWord := BitVec 256

/-- A value state of width `w` (R10): `Known(v)` with `v < 2^w`, or `X`, "distinct from any numeric value". -/
inductive XVal (w : Nat) where
  | known (v : BitVec w)
  | x
deriving DecidableEq, Repr

/-- The value state of a scalar register or of one lane (R10). -/
abbrev Val := XVal 32

/-- The value of a wide register: 8 lane values, lane 0 first (R27). -/
abbrev Lanes := Vector Val 8

end Sys2Proof
end

