-- ==== Sys2Proof/Config.lean ====
section
/-! DEFINITION. The parameters that the spec leaves open (00_scope.md R8; R42: configuration, not block state).
Each is a constant without a body, so that a claim holds for every value of it. -/

namespace Sys2Proof

/-- Which bits the Omega squaring reads (R8, R155, D9): the 256-bit value, or lane 0. -/
inductive OmegaSqOperand where
  | full
  | lane0
deriving DecidableEq, Repr, Inhabited

/-- `OMEGA_SQ_OPERAND` (R8, D9). The spec's default is FULL; a claim must hold for both readings, so nothing here says
which one a block has. DESIGN CHOICE (log 6), safe. -/
opaque Config.omegaSqOperand : OmegaSqOperand

/-- `TRACE_PREFIX` (R8, R176, D22), an open string parameter. DESIGN CHOICE (log 7), safe. -/
opaque Config.tracePrefix : String

end Sys2Proof
end

