-- ==== Sys2Proof/Syntax.lean ====
section
/-! DEFINITION. The registers (10_state.md R20) and the commands: one constructor of `Instr` for each row of
spec/opcode_table.json. -/

namespace Sys2Proof

/-- The 11 scalar registers of R20 (32 bits each, R22). -/
inductive Scalar where
  | q | qdash | twiddle | omegaIdx | psiIdx | j | da0 | da1 | m | j2 | mode
deriving DecidableEq, Repr

/-- The two wide registers of R20 (8 lanes of 32 bits, R22, R27). -/
inductive Wide where
  | omega | psi
deriving DecidableEq, Repr

/-- The 13 registers of R20. -/
inductive Reg where
  | scalar (r : Scalar)
  | wide (w : Wide)
deriving DecidableEq, Repr

/-- The 16 operations of R73, one per operation code. -/
inductive Op where
  | read | readPending | write | readLane | writeLane | increment | setFromCounter | loadFromPsi | negateModQ
  | updateByOmega | update | commit | abort | changes | peek | wipe
deriving DecidableEq, Repr

/-- A command, one constructor per row of the opcode table (R73). `reg` and `lane` are the fields of R71; the write
data is no part of the word (R70): a meaning reads it from the bus. -/
inductive Instr where
  | read (reg : Reg)
  | readPending (reg : Reg)
  | write (reg : Reg)
  | readLane (reg : Reg) (lane : BitVec 4)
  | writeLane (reg : Reg) (lane : BitVec 4)
  | increment (reg : Reg)
  | setFromCounterDa0
  | setFromCounterDa1
  | loadFromPsi
  | negateModQ
  | updateByOmega
  | updateOmega
  | updatePsi
  | updateM
  | updateJ2
  | commit
  | abort
  | changes
  | peek
  | wipe
deriving DecidableEq, Repr

end Sys2Proof
end

