-- ==== Sys2Proof/WellFormed.lean ====
section
/-! DEFINITION. Which commands the spec's encoding can express: the kind table of 10_state.md R35. -/

namespace Sys2Proof

/-- The closed, tagged set of register kinds (R21). -/
inductive Kind where
  | plain | twiddle | wideOmega | widePsi | counter | derivedPlain | derivedOffset | strideM | strideJ2
deriving DecidableEq, Repr

/-- The kind of each register (R20, R21). -/
def Reg.kind : Reg → Kind
  | .scalar .q => .plain
  | .scalar .qdash => .plain
  | .scalar .twiddle => .twiddle
  | .wide .omega => .wideOmega
  | .wide .psi => .widePsi
  | .scalar .omegaIdx => .counter
  | .scalar .psiIdx => .counter
  | .scalar .j => .counter
  | .scalar .da0 => .derivedPlain
  | .scalar .da1 => .derivedOffset
  | .scalar .m => .strideM
  | .scalar .j2 => .strideJ2
  | .scalar .mode => .plain

/-- The kind table of R35: whether operation `op` acts on a register of kind `k`. The whole-file commands name no
register, so they accept none. -/
def Op.accepts (op : Op) (k : Kind) : Bool :=
  match op with
  | .read => true
  | .readPending => true
  | .write => true
  | .readLane => k == .wideOmega || k == .widePsi
  | .writeLane => k == .wideOmega || k == .widePsi
  | .increment => k == .counter || k == .derivedPlain || k == .derivedOffset
  | .setFromCounter => k == .derivedPlain || k == .derivedOffset
  | .loadFromPsi => k == .twiddle
  | .negateModQ => k == .twiddle
  | .updateByOmega => k == .twiddle
  | .update => k == .wideOmega || k == .widePsi || k == .strideM || k == .strideJ2
  | .commit => false
  | .abort => false
  | .changes => false
  | .peek => false
  | .wipe => false

/-- The operation of a command (R73). -/
def Instr.op : Instr → Op
  | .read _ => .read
  | .readPending _ => .readPending
  | .write _ => .write
  | .readLane _ _ => .readLane
  | .writeLane _ _ => .writeLane
  | .increment _ => .increment
  | .setFromCounterDa0 => .setFromCounter
  | .setFromCounterDa1 => .setFromCounter
  | .loadFromPsi => .loadFromPsi
  | .negateModQ => .negateModQ
  | .updateByOmega => .updateByOmega
  | .updateOmega => .update
  | .updatePsi => .update
  | .updateM => .update
  | .updateJ2 => .update
  | .commit => .commit
  | .abort => .abort
  | .changes => .changes
  | .peek => .peek
  | .wipe => .wipe

/-- The register a command names in its reg field (R73); a whole-file command names none. -/
def Instr.reg? : Instr → Option Reg
  | .read r => some r
  | .readPending r => some r
  | .write r => some r
  | .readLane r _ => some r
  | .writeLane r _ => some r
  | .increment r => some r
  | .setFromCounterDa0 => some (.scalar .da0)
  | .setFromCounterDa1 => some (.scalar .da1)
  | .loadFromPsi => some (.scalar .twiddle)
  | .negateModQ => some (.scalar .twiddle)
  | .updateByOmega => some (.scalar .twiddle)
  | .updateOmega => some (.wide .omega)
  | .updatePsi => some (.wide .psi)
  | .updateM => some (.scalar .m)
  | .updateJ2 => some (.scalar .j2)
  | .commit => none
  | .abort => none
  | .changes => none
  | .peek => none
  | .wipe => none

/-- A command is well formed when its operation is listed for its register in the kind table (R35). -/
def Instr.wellFormed (i : Instr) : Bool :=
  match i.reg? with
  | none => true
  | some r => i.op.accepts r.kind

end Sys2Proof
end

