-- ==== Sys2Proof/Decode.lean ====
section
/-! DEFINITION. The register index map (10_state.md R20), the operation codes (30_encoding.md R73), the decoder in
the order of R74, and after it the encoder of R76. -/

namespace Sys2Proof

/-- The index of each register (R20). -/
def Reg.index : Reg → Nat
  | .scalar .q => 0
  | .scalar .qdash => 1
  | .scalar .twiddle => 2
  | .wide .omega => 3
  | .wide .psi => 4
  | .scalar .omegaIdx => 5
  | .scalar .psiIdx => 6
  | .scalar .j => 7
  | .scalar .da0 => 8
  | .scalar .da1 => 9
  | .scalar .m => 10
  | .scalar .j2 => 11
  | .scalar .mode => 12

/-- The register at an index; indices from 13 on name none (R51, R59). -/
def Reg.ofIndex : Nat → Option Reg
  | 0 => some (.scalar .q)
  | 1 => some (.scalar .qdash)
  | 2 => some (.scalar .twiddle)
  | 3 => some (.wide .omega)
  | 4 => some (.wide .psi)
  | 5 => some (.scalar .omegaIdx)
  | 6 => some (.scalar .psiIdx)
  | 7 => some (.scalar .j)
  | 8 => some (.scalar .da0)
  | 9 => some (.scalar .da1)
  | 10 => some (.scalar .m)
  | 11 => some (.scalar .j2)
  | 12 => some (.scalar .mode)
  | _ => none

/-- The operation codes of R73. -/
def Op.code : Op → BitVec 5
  | .read => 0x01
  | .readPending => 0x02
  | .write => 0x03
  | .readLane => 0x04
  | .writeLane => 0x05
  | .increment => 0x06
  | .setFromCounter => 0x07
  | .loadFromPsi => 0x08
  | .negateModQ => 0x09
  | .updateByOmega => 0x0A
  | .update => 0x0B
  | .commit => 0x10
  | .abort => 0x11
  | .changes => 0x12
  | .peek => 0x13
  | .wipe => 0x14

/-- The operation of a code; 0x00, 0x0C to 0x0F and 0x15 to 0x1F are reserved (R73, R75). -/
def Op.ofCode (c : BitVec 5) : Option Op :=
  match c.toNat with
  | 0x01 => some .read
  | 0x02 => some .readPending
  | 0x03 => some .write
  | 0x04 => some .readLane
  | 0x05 => some .writeLane
  | 0x06 => some .increment
  | 0x07 => some .setFromCounter
  | 0x08 => some .loadFromPsi
  | 0x09 => some .negateModQ
  | 0x0A => some .updateByOmega
  | 0x0B => some .update
  | 0x10 => some .commit
  | 0x11 => some .abort
  | 0x12 => some .changes
  | 0x13 => some .peek
  | 0x14 => some .wipe
  | _ => none

/-- Why a command word is illegal: the checks of R74 in their order. Every one of them raises ILLEGAL_COMMAND. -/
inductive DecodeError where
  /-- `res != 0` -/
  | reservedBits
  /-- `op` is 0x00, 0x0C to 0x0F or 0x15 to 0x1F -/
  | reservedOp
  /-- a whole-file command with a nonzero reg or lane field -/
  | strayField
  /-- `reg` is 13 to 31 -/
  | noSuchRegister
  /-- `reg` is not allowed for `op` (R35) -/
  | registerNotAllowed
  /-- a nonzero lane field on a command that takes no lane -/
  | strayLane
deriving DecidableEq, Repr

/-- The fields of a command word (R71). -/
def opField (cmd : BitVec 32) : BitVec 5 := cmd.extractLsb' 0 5
/-- The reg field `cmd[9:5]` (R71). -/
def regField (cmd : BitVec 32) : BitVec 5 := cmd.extractLsb' 5 5
/-- The lane field `cmd[13:10]` (R71). -/
def laneField (cmd : BitVec 32) : BitVec 4 := cmd.extractLsb' 10 4
/-- The reserved field `cmd[31:14]` (R71). -/
def resField (cmd : BitVec 32) : BitVec 18 := cmd.extractLsb' 14 18

/-- The whole-file commands, which name no register and take no lane (R73). -/
def Op.wholeFile? : Op → Option Instr
  | .commit => some .commit
  | .abort => some .abort
  | .changes => some .changes
  | .peek => some .peek
  | .wipe => some .wipe
  | .read | .readPending | .write | .readLane | .writeLane | .increment | .setFromCounter | .loadFromPsi
  | .negateModQ | .updateByOmega | .update => none

/-- The row of R73 that an operation and a register select, if the register is allowed for the operation. -/
def Op.row? (op : Op) (r : Reg) (lane : BitVec 4) : Option Instr :=
  match op with
  | .read => some (.read r)
  | .readPending => some (.readPending r)
  | .write => some (.write r)
  | .readLane =>
    match r with
    | .wide _ => some (.readLane r lane)
    | .scalar _ => none
  | .writeLane =>
    match r with
    | .wide _ => some (.writeLane r lane)
    | .scalar _ => none
  | .increment =>
    if r = .scalar .omegaIdx ∨ r = .scalar .psiIdx ∨ r = .scalar .j ∨ r = .scalar .da0 ∨ r = .scalar .da1 then
      some (.increment r)
    else none
  | .setFromCounter =>
    if r = .scalar .da0 then some .setFromCounterDa0
    else if r = .scalar .da1 then some .setFromCounterDa1
    else none
  | .loadFromPsi => if r = .scalar .twiddle then some .loadFromPsi else none
  | .negateModQ => if r = .scalar .twiddle then some .negateModQ else none
  | .updateByOmega => if r = .scalar .twiddle then some .updateByOmega else none
  | .update =>
    if r = .wide .omega then some .updateOmega
    else if r = .wide .psi then some .updatePsi
    else if r = .scalar .m then some .updateM
    else if r = .scalar .j2 then some .updateJ2
    else none
  | .commit | .abort | .changes | .peek | .wipe => none

/-- READ_LANE and WRITE_LANE take a lane (R74). -/
def Op.takesLane (op : Op) : Bool := op == .readLane || op == .writeLane

/-- The decoder of R74, total on every 32-bit word: the command, or the check that refuses it. A lane field of 8 to 15
on READ_LANE or WRITE_LANE passes and faults in the command's own rule. -/
def decode (cmd : BitVec 32) : Except DecodeError Instr :=
  if resField cmd ≠ 0 then .error .reservedBits
  else match Op.ofCode (opField cmd) with
  | none => .error .reservedOp
  | some op =>
    match op.wholeFile? with
    | some i => if regField cmd ≠ 0 ∨ laneField cmd ≠ 0 then .error .strayField else .ok i
    | none =>
      match Reg.ofIndex (regField cmd).toNat with
      | none => .error .noSuchRegister
      | some r =>
        match op.row? r (laneField cmd) with
        | none => .error .registerNotAllowed
        | some i => if op.takesLane = false ∧ laneField cmd ≠ 0 then .error .strayLane else .ok i

/-- The word of an operation, a register index and a lane number: `op | (reg << 5) | (lane << 10)` (R76). -/
def commandWord (op : Op) (reg : BitVec 5) (lane : BitVec 4) : BitVec 32 :=
  op.code.setWidth 32 ||| (reg.setWidth 32 <<< 5) ||| (lane.setWidth 32 <<< 10)

/-- The lane field of a command; 0 for a command that takes no lane (R73). -/
def Instr.laneBits : Instr → BitVec 4
  | .readLane _ k => k
  | .writeLane _ k => k
  | .read _ | .readPending _ | .write _ | .increment _ | .setFromCounterDa0 | .setFromCounterDa1 | .loadFromPsi
  | .negateModQ | .updateByOmega | .updateOmega | .updatePsi | .updateM | .updateJ2 | .commit | .abort | .changes
  | .peek | .wipe => 0

/-- The reg field of a command: its register's index, 0 for a whole-file command (R73). -/
def Instr.regBits (i : Instr) : BitVec 5 :=
  match i.reg? with
  | some r => BitVec.ofNat 5 r.index
  | none => 0

/-- The word of a command (R76). -/
def encode (i : Instr) : BitVec 32 := commandWord i.op i.regBits i.laneBits

/-- The instruction the decoder reads from a table row's bits: the command word is the row's one 32-bit word (R71). -/
def decodeTableWord (nbits w : Nat) : Option Instr :=
  match decode (BitVec.ofNat 32 (w % 2 ^ nbits)) with
  | .ok i => some i
  | .error _ => none

end Sys2Proof
end

