-- ==== Sys2Proof/Machine/State.lean ====
section
/-! DEFINITION. The state of the block as plain data: the register bank with its pending values, the pending set and
the fault record (10_state.md), and the model's own interface fields (30_encoding.md R70). -/

namespace Sys2Proof.Machine

/-- One datum for each of the 13 registers, in the index order of R20: `S` for a scalar register, `W` for a wide one. -/
structure File (S W : Type) where
  q : S
  qdash : S
  twiddle : S
  omega : W
  psi : W
  omegaIdx : S
  psiIdx : S
  j : S
  da0 : S
  da1 : S
  m : S
  j2 : S
  mode : S
deriving DecidableEq, Repr

/-- The fault kinds of 60_exceptions.md R201. -/
inductive FaultCode where
  | rangeLaneIndex
  | rangeValue
  | overflow
  | negPrecondition
  | illegalCommand
  | pendingInconsistent
deriving DecidableEq, Repr

/-- A fault the block raises, with the information R201 records. Taking one is a NEXT state of the model (R202 to
R204, log 4); who raises each is the "raised by" column of R201. -/
inductive BlockFault where
  | rangeLaneIndex (reg : Reg) (lane : Nat)
  | rangeValue (reg : Reg) (value : Nat)
  | overflow (reg : Reg) (value : Word)
  | negPrecondition (reg : Reg) (value q : Word)
  | illegalCommand (cmd : BitVec 32)
  | pendingInconsistent
deriving DecidableEq, Repr

/-- A trace entry (43_register_file.md R175): name, bit width, and the new value, absent when it is unknown. -/
structure TraceEntry where
  name : String
  width : Nat
  value : Option Nat
deriving DecidableEq, Repr

/-- The list output of R70: none, the trace entries of CHANGES (R174), or the snapshot of PEEK (R178), each value as a
256-bit number (zero-extended) or X. -/
inductive OutList where
  | none
  | changes (entries : List TraceEntry)
  | peek (values : List (XVal 256))
deriving DecidableEq, Repr

/-- The outputs of a command (30_encoding.md R70). -/
structure Output where
  rdata : WideWord
  rdataX : Bool
  faultOut : Option FaultCode
  list : OutList
deriving DecidableEq, Repr

/-- The outputs of a command that is no read: `rdata = 0`, `rdata_x = 0`, no fault, no list (R72). -/
def Output.idle : Output := { rdata := 0, rdataX := false, faultOut := .none, list := .none }

/-- What the host presents to the block (R70): a command word with its write data, or the reset input, which "is not a
command of the command word" (R230). `wdata` is an unsigned number; DESIGN CHOICE (log 2), safe. -/
inductive HostEvent where
  | command (cmd : BitVec 32) (wdata : Nat)
  | reset
deriving DecidableEq, Repr

/-- The state of the block, and the model's own interface fields (the last three). -/
structure State where
  /-- the current values `x[i]` (R20, R23) -/
  cur : File Val Lanes
  /-- the pending values `pend[i]` (R32) -/
  pend : File (Option Val) (Option Lanes)
  /-- the pending set `P`: the Dirty flag of each register (R33, R38) -/
  dirty : File Bool Bool
  /-- the fault record (R40) -/
  fault : Option BlockFault
  /-- MODEL'S OWN: what the host presents next (R37, R42, log 1) -/
  host : List HostEvent
  /-- MODEL'S OWN: the write-data bus of the command being executed (R70, log 2) -/
  wdata : Nat
  /-- MODEL'S OWN: the outputs of the last command (R70, log 3) -/
  out : Output
deriving DecidableEq, Repr

/-- Why the model itself stops. A fault of the BLOCK is no stop: see `BlockFault`. -/
inductive Fault where
  /-- Raised by `step` alone: the host presents no command, so the block has nothing to execute. DESIGN CHOICE
  (log 1), safe: the model stops where the hardware waits. -/
  | noCommand
deriving DecidableEq, Repr

/-- The refusals of the model. -/
inductive Refusal where
  /-- An instruction that has no meaning yet, by its mnemonic; no arm of `exec` raises it. Safe. -/
  | notModelled (mnemonic : String)
deriving DecidableEq, Repr

/-- What a step or a meaning answers. -/
abbrev Answer := Host.Outcome State Fault Refusal

/-- A wide register whose 8 lanes are all Known 0 (R43). -/
def zeroLanes : Lanes := #v[.known 0, .known 0, .known 0, .known 0, .known 0, .known 0, .known 0, .known 0]

/-- The machine right after reset (R43, R230): every register Known 0, nothing pending, P empty, no fault recorded.
The interface fields are empty: DESIGN CHOICE (log 1, log 2, log 3). -/
def State.reset : State where
  cur :=
    { q := .known 0, qdash := .known 0, twiddle := .known 0, omega := zeroLanes, psi := zeroLanes,
      omegaIdx := .known 0, psiIdx := .known 0, j := .known 0, da0 := .known 0, da1 := .known 0, m := .known 0,
      j2 := .known 0, mode := .known 0 }
  pend :=
    { q := none, qdash := none, twiddle := none, omega := none, psi := none, omegaIdx := none, psiIdx := none,
      j := none, da0 := none, da1 := none, m := none, j2 := none, mode := none }
  dirty :=
    { q := false, qdash := false, twiddle := false, omega := false, psi := false, omegaIdx := false, psiIdx := false,
      j := false, da0 := false, da1 := false, m := false, j2 := false, mode := false }
  fault := none
  host := []
  wdata := 0
  out := Output.idle

end Sys2Proof.Machine
end

