-- ==== Sys2Proof/Machine/Operands.lean ====
section
/-! DEFINITION. The operand forms and the arithmetic of the block: whole values and lanes of a wide register
(20_memory.md R52, R54), lane selection (42_arithmetic.md R146), bit reversal and strides (41_counters.md R122 to
R130), and the Montgomery engine (42_arithmetic.md R140). -/

namespace Sys2Proof.Machine

/-- The 13 registers in ascending index order (R20, R174). -/
def allRegs : List Reg :=
  [.scalar .q, .scalar .qdash, .scalar .twiddle, .wide .omega, .wide .psi, .scalar .omegaIdx, .scalar .psiIdx,
    .scalar .j, .scalar .da0, .scalar .da1, .scalar .m, .scalar .j2, .scalar .mode]

/-- The 8 lane numbers in ascending order (R51). -/
def allLanes : List (Fin 8) := [0, 1, 2, 3, 4, 5, 6, 7]

/-- The width `W` of a register in bits (R20, R22). -/
def regWidth : Reg → Nat
  | .scalar _ => 32
  | .wide _ => 256

/-- A value of a register in the register's own shape (R32): a scalar value state, or 8 lane value states. -/
inductive RegValue where
  | scalar (v : Val)
  | wide (lanes : Lanes)
deriving DecidableEq, Repr

/-- The whole value of a wide register (R10, R52): `L[7] || L[6] || ... || L[0]` when every lane is Known, else X. -/
def wholeValue (l : Lanes) : XVal 256 :=
  match l[0], l[1], l[2], l[3], l[4], l[5], l[6], l[7] with
  | .known a0, .known a1, .known a2, .known a3, .known a4, .known a5, .known a6, .known a7 =>
    .known (a7 ++ a6 ++ a5 ++ a4 ++ a3 ++ a2 ++ a1 ++ a0)
  | _, _, _, _, _, _, _, _ => .x

/-- `zext_256` of a 32-bit value state (R9, R72). -/
def zext256 : Val → XVal 256
  | .known v => .known (v.setWidth 256)
  | .x => .x

/-- The number a register value stands for, zero-extended to 256 bits, or X (R10, R72). -/
def RegValue.number : RegValue → XVal 256
  | .scalar v => zext256 v
  | .wide l => wholeValue l

/-- The 8 Known lanes of an unsigned number: lane k is `d[32k+31 : 32k]` (R52, R104). -/
def lanesOfNat (d : Nat) : Lanes := Vector.ofFn fun k : Fin 8 => .known (BitVec.ofNat 32 (d / 2 ^ (32 * k.val)))

/-- The lane a lane field names, if it is one of the lanes 0 to 7 (R55, R72). -/
def laneOfField (k : BitVec 4) : Option (Fin 8) := if h : k.toNat < 8 then some ⟨k.toNat, h⟩ else none

/-- What an index counter's value selects (R146). -/
inductive LaneChoice where
  /-- the counter is X -/
  | unknown
  /-- a Known value of 8 or more: RANGE_LANE_INDEX -/
  | outOfRange (c : Word)
  /-- a lane number -/
  | lane (k : Fin 8)
deriving DecidableEq, Repr

/-- `sel(C)` of R146 on the counter's current value: the whole value is the lane number (D8). -/
def selectLane : Val → LaneChoice
  | .x => .unknown
  | .known c => if h : c.toNat < 8 then .lane ⟨c.toNat, h⟩ else .outOfRange c

/-- `register_select = value >> 3` of a derived-address counter (R29, conflict C3: exact, not cut to 5 bits). -/
def registerSelect (v : Word) : Nat := v.toNat >>> 3

/-- `lane_select = value & 7` of a derived-address counter (R29). -/
def laneSelect (v : Word) : Nat := v.toNat &&& 7

/-- The bit-reversal permutation of a byte (R122): bit j of the result is bit 7 - j of the input. -/
def rev8 (b : BitVec 8) : BitVec 8 :=
  BitVec.ofBool (b.getLsbD 0) ++ BitVec.ofBool (b.getLsbD 1) ++ BitVec.ofBool (b.getLsbD 2)
    ++ BitVec.ofBool (b.getLsbD 3) ++ BitVec.ofBool (b.getLsbD 4) ++ BitVec.ofBool (b.getLsbD 5)
    ++ BitVec.ofBool (b.getLsbD 6) ++ BitVec.ofBool (b.getLsbD 7)

/-- The plain derived address of a counter value: its bit-reversed low byte (R124). -/
def plainAddress (c : Word) : Word := (rev8 (c.extractLsb' 0 8)).setWidth 32

/-- The offset derived address (R126): the full stride is added to the bit-reversed byte, then masked to 8 bits. -/
def offsetAddress (c s : Word) : Word :=
  BitVec.ofNat 32 (((rev8 (c.extractLsb' 0 8)).toNat + s.toNat) &&& 0xFF)

/-- `(v & 0x7F) << 1`, the growing stride (R128). -/
def strideGrow (v : Word) : Word := (v &&& 0x7F) <<< 1

/-- `(v & 0xFF) >> 1`, the shrinking stride (R128). -/
def strideShrink (v : Word) : Word := (v &&& 0xFF) >>> 1

/-- The Montgomery function of R140 on exact unsigned integers: truncate `t` first, then subtract `q` once at most
(R141). `a` and `b` may have up to 256 bits. -/
def montMul (a b q qd : Nat) : Nat :=
  let p := a * b
  let m := ((p % 2 ^ 32) * qd) % 2 ^ 32
  let s := p + m * q
  let t := (s >>> 32) % 2 ^ 32
  if t ≥ q then t - q else t

/-- The operand of the Omega squaring (R155): the whole 256-bit value, or lane 0. -/
def squareOperand (o : OmegaSqOperand) (l : Lanes) : XVal 256 :=
  match o with
  | .full => wholeValue l
  | .lane0 => zext256 l[0]

/-- The Omega square of R155: the Montgomery square in lane 0 with zeros above it, or 8 X lanes when an operand is X. -/
def squareLanes (v : XVal 256) (q qd : Val) : Lanes :=
  match v, q, qd with
  | .known v, .known q, .known qd => lanesOfNat (montMul v.toNat v.toNat q.toNat qd.toNat)
  | _, _, _ => Vector.replicate 8 .x

end Sys2Proof.Machine
end

