-- ==== Sys2Proof/Machine/Flags.lean ====
section
/-! DEFINITION. The accessors of the register bank, and the single-bit state of 10_state.md R38: the Dirty flag of each
register and the mode flag. The block has no status flags and no condition codes (R38). -/

namespace Sys2Proof.Machine

variable {S W : Type}

/-- The datum of a scalar register. -/
def File.scalar (f : File S W) : Scalar → S
  | .q => f.q
  | .qdash => f.qdash
  | .twiddle => f.twiddle
  | .omegaIdx => f.omegaIdx
  | .psiIdx => f.psiIdx
  | .j => f.j
  | .da0 => f.da0
  | .da1 => f.da1
  | .m => f.m
  | .j2 => f.j2
  | .mode => f.mode

/-- The datum of a wide register. -/
def File.wide (f : File S W) : Wide → W
  | .omega => f.omega
  | .psi => f.psi

/-- Replace the datum of one scalar register. -/
def File.setScalar (f : File S W) (r : Scalar) (v : S) : File S W :=
  match r with
  | .q => { f with q := v }
  | .qdash => { f with qdash := v }
  | .twiddle => { f with twiddle := v }
  | .omegaIdx => { f with omegaIdx := v }
  | .psiIdx => { f with psiIdx := v }
  | .j => { f with j := v }
  | .da0 => { f with da0 := v }
  | .da1 => { f with da1 := v }
  | .m => { f with m := v }
  | .j2 => { f with j2 := v }
  | .mode => { f with mode := v }

/-- Replace the datum of one wide register. -/
def File.setWide (f : File S W) (w : Wide) (v : W) : File S W :=
  match w with
  | .omega => { f with omega := v }
  | .psi => { f with psi := v }

/-- The bank whose datum at each register is given by a function. -/
def File.tabulate (f : Scalar → S) (g : Wide → W) : File S W where
  q := f .q
  qdash := f .qdash
  twiddle := f .twiddle
  omega := g .omega
  psi := g .psi
  omegaIdx := f .omegaIdx
  psiIdx := f .psiIdx
  j := f .j
  da0 := f .da0
  da1 := f .da1
  m := f .m
  j2 := f .j2
  mode := f .mode

/-- `x[i]`, the current value of register i (R11, R23). -/
def State.current (s : State) : Reg → RegValue
  | .scalar r => .scalar (s.cur.scalar r)
  | .wide w => .wide (s.cur.wide w)

/-- `pend[i]`, the pending value of register i, or none (R11, R32). -/
def State.pending (s : State) : Reg → Option RegValue
  | .scalar r => (s.pend.scalar r).map .scalar
  | .wide w => (s.pend.wide w).map .wide

/-- The Dirty flag of register i: whether i is in the pending set P (R33, R38). -/
def State.isDirty (s : State) : Reg → Bool
  | .scalar r => s.dirty.scalar r
  | .wide w => s.dirty.wide w

/-- The mode flag, `MODE[0]`, of a value of MODE (R31, R128); the other bits are not read. -/
def modeFlag (mode : Word) : Bool := mode.getLsbD 0

/-- Whether some member of P has no pending value: the violation of R33 that PENDING_INCONSISTENT names (R201). -/
def State.pendingMissing (s : State) : Bool := allRegs.any fun r => s.isDirty r && (s.pending r).isNone

end Sys2Proof.Machine
end

