-- ==== Sys2Proof/Machine/Ops.lean ====
section
/-! DEFINITION. The named operations the meanings are written over: staging (10_state.md R34), the lane merge
(40_register_access.md R108), answering a read (30_encoding.md R72), taking a fault (60_exceptions.md R202, R203), and
closing a cycle (43_register_file.md R170, R172). -/

namespace Sys2Proof.Machine

/-- The code of a fault (R201). -/
def BlockFault.code : BlockFault → FaultCode
  | .rangeLaneIndex _ _ => .rangeLaneIndex
  | .rangeValue _ _ => .rangeValue
  | .overflow _ _ => .overflow
  | .negPrecondition _ _ _ => .negPrecondition
  | .illegalCommand _ => .illegalCommand
  | .pendingInconsistent => .pendingInconsistent

/-- The number of a fault code (R201). -/
def FaultCode.number : FaultCode → Nat
  | .rangeLaneIndex => 1
  | .rangeValue => 2
  | .overflow => 3
  | .negPrecondition => 4
  | .illegalCommand => 5
  | .pendingInconsistent => 6

/-- The command ends with no read data, no fault and no list (R72). -/
def finish (s : State) : State := { s with out := Output.idle }

/-- TAKING A FAULT, the one shared operation (R202, R203): nothing is staged or cleared, the record keeps the first
fault, and the outputs are `rdata = 0`, `rdata_x = 0`, `fault_out = code`. There is no return from it (R206). -/
def raise (f : BlockFault) (s : State) : State :=
  { s with
    fault := match s.fault with
      | none => some f
      | some first => some first
    out := { Output.idle with faultOut := some f.code } }

/-- A command whose register its operation does not list in the kind table raises ILLEGAL_COMMAND (R35). -/
def raiseIllegal (i : Instr) (s : State) : State := raise (.illegalCommand (encode i)) s

/-- `x[i] <- v` for a scalar register (R34): the pending value is replaced and the register enters P. -/
def stageScalar (r : Scalar) (v : Val) (s : State) : State :=
  { s with pend := s.pend.setScalar r (some v), dirty := s.dirty.setScalar r true }

/-- `x[i] <- v` for a wide register (R34). -/
def stageWide (w : Wide) (v : Lanes) (s : State) : State :=
  { s with pend := s.pend.setWide w (some v), dirty := s.dirty.setWide w true }

/-- The base of a lane merge (R108): the register's own pending value if there is one, else its current value. -/
def mergeBase (w : Wide) (s : State) : Lanes :=
  match s.pend.wide w with
  | some l => l
  | none => s.cur.wide w

/-- The merge of one lane (R108, R112), also of an X lane (R160): the other 7 lanes come from the base. -/
def mergeLane (w : Wide) (k : Fin 8) (v : Val) (s : State) : State := stageWide w ((mergeBase w s).set k v) s

/-- Eight lane merges of one value, lane 0 first (R160). -/
def broadcast (w : Wide) (v : Val) (s : State) : State := allLanes.foldl (fun t k => mergeLane w k v t) s

/-- The outputs of a read of `v` (R72, R100): the value zero-extended to 256 bits, or `rdata = 0` with `rdata_x = 1`. -/
def readOutput : XVal 256 → Output
  | .known v => { Output.idle with rdata := v }
  | .x => { Output.idle with rdataX := true }

/-- Answer a read: only the outputs change (R58). -/
def answer (v : XVal 256) (s : State) : State := { s with out := readOutput v }

/-- Answer with a list (R70, R174, R178): only the outputs change (R58). `rdata = 0` and `rdata_x = 0` beside the list
are the model's: R72 gives them for a command that is no read, but R58 calls CHANGES and PEEK reads, and no rule gives
their bus value. DESIGN CHOICE (log 15), unsafe. -/
def answerList (l : OutList) (s : State) : State := { s with out := { Output.idle with list := l } }

/-- What READ_PENDING reads (R102, conflict C2): the pending value if present, else the current value. -/
def pendingOrCurrent (r : Reg) (s : State) : RegValue :=
  match s.pending r with
  | some v => v
  | none => s.current r

/-- `sel(C)` with its range check (R146): the check raises RANGE_LANE_INDEX for the counter before any other operand
is looked at; otherwise the command goes on with the lane, or with none when the counter is X. -/
def withSelectedLane (c : Scalar) (s : State) (k : Option (Fin 8) → State) : State :=
  match selectLane (s.cur.scalar c) with
  | .outOfRange n => raise (.rangeLaneIndex (.scalar c) n.toNat) s
  | .unknown => k none
  | .lane l => k (some l)

/-- Members of P take `a`, the others keep `b`. -/
def ifDirty {α : Type} (d : Bool) (a b : α) : α := if d then a else b

/-- Discard the pending value of every member of P and empty P (R172). -/
def discardPending (s : State) : State :=
  { s with
    pend := File.tabulate (fun r => ifDirty (s.dirty.scalar r) none (s.pend.scalar r))
      (fun w => ifDirty (s.dirty.wide w) none (s.pend.wide w))
    dirty := File.tabulate (fun _ => false) (fun _ => false) }

/-- Make the pending value of every member of P current, then discard it and empty P (R170). The result does not
depend on an order of the registers (R171). -/
def commitPending (s : State) : State :=
  discardPending { s with
    cur := File.tabulate (fun r => ifDirty (s.dirty.scalar r) ((s.pend.scalar r).getD (s.cur.scalar r)) (s.cur.scalar r))
      (fun w => ifDirty (s.dirty.wide w) ((s.pend.wide w).getD (s.cur.wide w)) (s.cur.wide w)) }

/-- Stage X in every register (R180): wide registers get 8 X lanes, and every register enters P. -/
def poisonAll (s : State) : State :=
  { s with
    pend := File.tabulate (fun _ => some .x) (fun _ => some (Vector.replicate 8 .x))
    dirty := File.tabulate (fun _ => true) (fun _ => true) }

end Sys2Proof.Machine
end

