-- ==== Sys2Proof/Machine/Arithmetic.lean ====
section
/-! DEFINITION. LOAD_FROM_PSI, NEGATE_MOD_Q, UPDATE_BY_OMEGA, and UPDATE on OMEGA and PSI (42_arithmetic.md). Every
operand is a current value (20_memory.md R61). -/

namespace Sys2Proof.Machine

/-- The lane an index counter selected, or X when the counter is X (R146, R147, R160). -/
def laneOrX (l : Lanes) : Option (Fin 8) → Val
  | none => .x
  | some k => l[k]

/-- LOAD_FROM_PSI (R147): stage the PSI lane that PSI_IDX selects. -/
def execLoadFromPsi (s : State) : Answer :=
  .next (withSelectedLane .psiIdx s fun k => finish (stageScalar .twiddle (laneOrX (s.cur.wide .psi) k) s))

/-- NEGATE_MOD_Q (R148, R149): X when an operand is X, NEG_PRECONDITION when `q <= v`, else `q - v`. -/
def execNegateModQ (s : State) : Answer :=
  match s.cur.scalar .twiddle, s.cur.scalar .q with
  | .known v, .known q =>
    if v.toNat < q.toNat then .next (finish (stageScalar .twiddle (.known (q - v)) s))
    else .next (raise (.negPrecondition (.scalar .twiddle) v q) s)
  | _, _ => .next (finish (stageScalar .twiddle .x s))

/-- The Montgomery product of value states: X when any operand is X (R12, R152). -/
def montValue (a b q qd : Val) : Val :=
  match a, b, q, qd with
  | .known a, .known b, .known q, .known qd => .known (BitVec.ofNat 32 (montMul a.toNat b.toNat q.toNat qd.toNat))
  | _, _, _, _ => .x

/-- UPDATE_BY_OMEGA (R152): stage the Montgomery product of the twiddle and the OMEGA lane that OMEGA_IDX selects. -/
def execUpdateByOmega (s : State) : Answer :=
  .next (withSelectedLane .omegaIdx s fun k =>
    finish (stageScalar .twiddle
      (montValue (s.cur.scalar .twiddle) (laneOrX (s.cur.wide .omega) k) (s.cur.scalar .q) (s.cur.scalar .qdash)) s))

/-- UPDATE on OMEGA for either value of `OMEGA_SQ_OPERAND` (R155). -/
def updateOmegaWith (o : OmegaSqOperand) (s : State) : State :=
  finish (stageWide .omega
    (squareLanes (squareOperand o (s.cur.wide .omega)) (s.cur.scalar .q) (s.cur.scalar .qdash)) s)

/-- UPDATE on OMEGA (R155) of this block: the operand its `OMEGA_SQ_OPERAND` says. -/
def execUpdateOmega (s : State) : Answer := .next (updateOmegaWith Config.omegaSqOperand s)

/-- UPDATE on PSI (R160): eight merges of the OMEGA lane that PSI_IDX selects. -/
def execUpdatePsi (s : State) : Answer :=
  .next (withSelectedLane .psiIdx s fun k => finish (broadcast .psi (laneOrX (s.cur.wide .omega) k) s))

end Sys2Proof.Machine
end

