-- ==== Sys2Proof/Machine/Counters.lean ====
section
/-! DEFINITION. INCREMENT, SET_FROM_COUNTER on DA0 and DA1, and UPDATE on the stride registers M and J2
(41_counters.md). Every value read is a current value (20_memory.md R61). -/

namespace Sys2Proof.Machine

/-- The saturating increment of a counter register (R120): X stays X, saturation raises OVERFLOW, else `v + 1`. -/
def incrementCounter (r : Scalar) (s : State) : State :=
  match s.cur.scalar r with
  | .x => finish (stageScalar r .x s)
  | .known v =>
    if v.toNat = 2 ^ 32 - 1 then raise (.overflow (.scalar r) v) s
    else finish (stageScalar r (.known (v + 1)) s)

/-- INCREMENT (R120), on the registers the kind table lists for it (R35). -/
def execIncrement (r : Reg) (s : State) : Answer :=
  match r with
  | .scalar .omegaIdx => .next (incrementCounter .omegaIdx s)
  | .scalar .psiIdx => .next (incrementCounter .psiIdx s)
  | .scalar .j => .next (incrementCounter .j s)
  | .scalar .da0 => .next (incrementCounter .da0 s)
  | .scalar .da1 => .next (incrementCounter .da1 s)
  | .scalar .q | .scalar .qdash | .scalar .twiddle | .scalar .m | .scalar .j2 | .scalar .mode | .wide _ =>
    .next (raiseIllegal (.increment r) s)

/-- The value SET_FROM_COUNTER stages in DA0 (R124): X, or the bit-reversed low byte of J. -/
def plainAddressValue : Val → Val
  | .x => .x
  | .known c => .known (plainAddress c)

/-- The value SET_FROM_COUNTER stages in DA1 (R126): X when J or M is X, else the offset address. -/
def offsetAddressValue (c m : Val) : Val :=
  match c, m with
  | .known c, .known m => .known (offsetAddress c m)
  | _, _ => .x

/-- SET_FROM_COUNTER on DA0, the plain identity (R123, R124). -/
def execSetFromCounterDa0 (s : State) : Answer :=
  .next (finish (stageScalar .da0 (plainAddressValue (s.cur.scalar .j)) s))

/-- SET_FROM_COUNTER on DA1, the offset identity with stride M (R123, R125, R126). -/
def execSetFromCounterDa1 (s : State) : Answer :=
  .next (finish (stageScalar .da1 (offsetAddressValue (s.cur.scalar .j) (s.cur.scalar .m)) s))

/-- A stride update under the mode flag: `onSet` when `MODE[0]` is 1, `onClear` when it is 0, X when an operand is X
(R12, R128). -/
def strideValue (onSet onClear : Word → Word) (v mode : Val) : Val :=
  match v, mode with
  | .known v, .known f => .known (if modeFlag f then onSet v else onClear v)
  | _, _ => .x

/-- UPDATE on M (R128). -/
def execUpdateM (s : State) : Answer :=
  .next (finish (stageScalar .m (strideValue strideGrow strideShrink (s.cur.scalar .m) (s.cur.scalar .mode)) s))

/-- UPDATE on J2, the complementary stride (R129, R130): the two mode cases are exchanged (D5). -/
def execUpdateJ2 (s : State) : Answer :=
  .next (finish (stageScalar .j2 (strideValue strideShrink strideGrow (s.cur.scalar .j2) (s.cur.scalar .mode)) s))

end Sys2Proof.Machine
end

