-- ==== Sys2Proof/Machine/RegisterAccess.lean ====
section
/-! DEFINITION. READ, READ_PENDING, WRITE, READ_LANE and WRITE_LANE (40_register_access.md). -/

namespace Sys2Proof.Machine

/-- READ (R100, R101): the current value on `rdata`, or the X indication; never a fault. -/
def execRead (r : Reg) (s : State) : Answer := .next (answer (s.current r).number s)

/-- READ_PENDING (R102): the pending value, falling back to the current value. -/
def execReadPending (r : Reg) (s : State) : Answer := .next (answer (pendingOrCurrent r s).number s)

/-- WRITE (R104): RANGE_VALUE when the data do not fit the register's width, else the whole value is staged. -/
def execWrite (r : Reg) (s : State) : Answer :=
  if s.wdata ≥ 2 ^ regWidth r then .next (raise (.rangeValue r s.wdata) s)
  else match r with
    | .scalar c => .next (finish (stageScalar c (.known (BitVec.ofNat 32 s.wdata)) s))
    | .wide w => .next (finish (stageWide w (lanesOfNat s.wdata) s))

/-- READ_LANE (R106): the current lane, or RANGE_LANE_INDEX for a lane field of 8 to 15. -/
def execReadLane (r : Reg) (k : BitVec 4) (s : State) : Answer :=
  match r with
  | .scalar _ => .next (raiseIllegal (.readLane r k) s)
  | .wide w =>
    match laneOfField k with
    | none => .next (raise (.rangeLaneIndex r k.toNat) s)
    | some l => .next (answer (zext256 (s.cur.wide w)[l]) s)

/-- WRITE_LANE (R108), the lane accumulator: the lane index is checked before the value (R205), then the lane is
merged into the pending value, or into the current value when none is pending. -/
def execWriteLane (r : Reg) (k : BitVec 4) (s : State) : Answer :=
  match r with
  | .scalar _ => .next (raiseIllegal (.writeLane r k) s)
  | .wide w =>
    match laneOfField k with
    | none => .next (raise (.rangeLaneIndex r k.toNat) s)
    | some l =>
      if s.wdata ≥ 2 ^ 32 then .next (raise (.rangeValue r s.wdata) s)
      else .next (finish (mergeLane w l (.known (BitVec.ofNat 32 s.wdata)) s))

end Sys2Proof.Machine
end

