-- ==== Sys2Proof/Machine/Trace.lean ====
section
/-! DEFINITION. The trace of CHANGES: names, entries and lines (43_register_file.md R174 to R177). -/

namespace Sys2Proof.Machine

/-- A digit below 16 as a lower-case hexadecimal character (R177, D23). -/
def hexDigit (n : Nat) : Char :=
  match n with
  | 0 => '0'
  | 1 => '1'
  | 2 => '2'
  | 3 => '3'
  | 4 => '4'
  | 5 => '5'
  | 6 => '6'
  | 7 => '7'
  | 8 => '8'
  | 9 => '9'
  | 10 => 'a'
  | 11 => 'b'
  | 12 => 'c'
  | 13 => 'd'
  | 14 => 'e'
  | _ => 'f'

/-- The low `k` hexadecimal digits of a number, most significant first, in front of `acc`. -/
def hexDigits : Nat → Nat → List Char → List Char
  | 0, _, acc => acc
  | k + 1, n, acc => hexDigits k (n / 16) (hexDigit (n % 16) :: acc)

/-- `trace_name(i) = TRACE_PREFIX ++ dec2(i)`: the index in decimal, zero-padded to two digits (R176). -/
def traceName (tracePrefix : String) (r : Reg) : String :=
  tracePrefix ++ String.ofList [hexDigit (r.index / 10), hexDigit (r.index % 10)]

/-- The value of a trace entry (R174): the number when it is Known, absent when it is X. -/
def traceValue : XVal 256 → Option Nat
  | .known v => some v.toNat
  | .x => none

/-- The trace entry of a register's pending value (R174, R175). In a state that violates R33 the value may be absent
(log 5). -/
def traceEntry (tracePrefix : String) (r : Reg) (v : Option RegValue) : TraceEntry where
  name := traceName tracePrefix r
  width := regWidth r
  value := v.bind fun v => traceValue v.number

/-- The digits of a trace line (R177): `width/4` lower-case hexadecimal digits, or `width/4` characters x. -/
def traceDigits (e : TraceEntry) : List Char :=
  match e.value with
  | some n => hexDigits (e.width / 4) n []
  | none => List.replicate (e.width / 4) 'x'

/-- A trace line, `NAME = 0x` and the digits (R177). -/
def traceLine (e : TraceEntry) : String := e.name ++ " = 0x" ++ String.ofList (traceDigits e)

/-- The trace of the pending set (R174): one entry for each member of P, in ascending index order. -/
def traceEntries (tracePrefix : String) (s : State) : List TraceEntry :=
  (allRegs.filter s.isDirty).map fun r => traceEntry tracePrefix r (s.pending r)

end Sys2Proof.Machine
end

