-- ==== Sys2Proof/Machine/RegisterFile.lean ====
section
/-! DEFINITION. COMMIT, ABORT, CHANGES, PEEK and WIPE (43_register_file.md). -/

namespace Sys2Proof.Machine

/-- COMMIT (R170): every pending value becomes current, and P is emptied, in one step (R171). Where P names a register
without a pending value, which R33 rules out, it raises PENDING_INCONSISTENT (R201, log 5). -/
def execCommit (s : State) : Answer :=
  if s.pendingMissing then .next (raise .pendingInconsistent s) else .next (finish (commitPending s))

/-- ABORT (R172): every pending value is discarded, the current values stay. -/
def execAbort (s : State) : Answer := .next (finish (discardPending s))

/-- CHANGES (R174): the trace entries of the pending set, in ascending index order; no state changes. -/
def execChanges (s : State) : Answer := .next (answerList (.changes (traceEntries Config.tracePrefix s)) s)

/-- PEEK (R178): the current value of every register, in index order; no state changes. -/
def execPeek (s : State) : Answer := .next (answerList (.peek (allRegs.map fun r => (s.current r).number)) s)

/-- WIPE (R180): X is staged in every register. -/
def execWipe (s : State) : Answer := .next (finish (poisonAll s))

end Sys2Proof.Machine
end

