-- ==== Sys2Proof/Machine/Dispatch.lean ====
section
/-! DEFINITION. One arm per command: the meaning of each row of the opcode table (30_encoding.md R73). -/

namespace Sys2Proof.Machine

def exec (i : Instr) (s : State) : Host.Outcome State Fault Refusal :=
  match i with
  | .read r => Sys2Proof.Machine.execRead r s
  | .readPending r => Sys2Proof.Machine.execReadPending r s
  | .write r => Sys2Proof.Machine.execWrite r s
  | .readLane r k => Sys2Proof.Machine.execReadLane r k s
  | .writeLane r k => Sys2Proof.Machine.execWriteLane r k s
  | .increment r => Sys2Proof.Machine.execIncrement r s
  | .setFromCounterDa0 => Sys2Proof.Machine.execSetFromCounterDa0 s
  | .setFromCounterDa1 => Sys2Proof.Machine.execSetFromCounterDa1 s
  | .loadFromPsi => Sys2Proof.Machine.execLoadFromPsi s
  | .negateModQ => Sys2Proof.Machine.execNegateModQ s
  | .updateByOmega => Sys2Proof.Machine.execUpdateByOmega s
  | .updateOmega => Sys2Proof.Machine.execUpdateOmega s
  | .updatePsi => Sys2Proof.Machine.execUpdatePsi s
  | .updateM => Sys2Proof.Machine.execUpdateM s
  | .updateJ2 => Sys2Proof.Machine.execUpdateJ2 s
  | .commit => Sys2Proof.Machine.execCommit s
  | .abort => Sys2Proof.Machine.execAbort s
  | .changes => Sys2Proof.Machine.execChanges s
  | .peek => Sys2Proof.Machine.execPeek s
  | .wipe => Sys2Proof.Machine.execWipe s

end Sys2Proof.Machine
end

