-- ==== Sys2Proof/Machine/Fetch.lean ====
section
/-! DEFINITION. Accepting what the host presents (30_encoding.md R70): one command word with its write data, or the
reset input. `step` calls these. -/

namespace Sys2Proof.Machine

/-- The state in which a presented command executes: its event has left the queue and its write data are on the bus. -/
def acceptCommand (rest : List HostEvent) (wdata : Nat) (s : State) : State := { s with host := rest, wdata := wdata }

/-- Execute one command word (R70, R74, R75): the command it decodes to, or ILLEGAL_COMMAND. -/
def runWord (cmd : BitVec 32) (s : State) : Answer :=
  match decode cmd with
  | .ok i => exec i s
  | .error _ => .next (raise (.illegalCommand cmd) s)

/-- The reset input (R230): every register Known 0, nothing pending, P empty, no fault; the host's queue goes on. -/
def resetBlock (rest : List HostEvent) : State := { State.reset with host := rest }

/-- The event the host presents when it issues a command word whose bits are `w`, with write data 0. -/
def eventOfWord (nbits w : Nat) : HostEvent := .command (BitVec.ofNat 32 (w % 2 ^ nbits)) 0

end Sys2Proof.Machine
end

