-- ==== Sys2Proof/Machine/Step.lean ====
section
/-! DEFINITION. One step: the block takes the next thing the host presents and executes it completely (30_encoding.md
R70, 20_memory.md R57). -/

namespace Sys2Proof.Machine

/-- One step of the block: the host's next event is accepted and executed; with none there is nothing to execute
(log 1). -/
def step (s : State) : Host.Outcome State Fault Refusal :=
  match s.host with
  | [] => .fault .noCommand
  | .reset :: rest => .next (resetBlock rest)
  | .command cmd wdata :: rest => runWord cmd (acceptCommand rest wdata s)

/-- The state in which the host presents the command word `w` next, with write data 0 (R70, log 1). -/
def State.withFetchWord (s : State) (nbits w : Nat) : State := { s with host := eventOfWord nbits w :: s.host }

end Sys2Proof.Machine
end

