-- ==== Sys2Proof/Machine/Assembler.lean ====
section
/-! DEFINITION. The textual syntax of commands (30_encoding.md R77): one command a line, a lower-case mnemonic, then
operands separated by commas; a `;` starts a comment. A line gives what the host presents (R70). Where R77 does not say
how a line is cut into words, log 11 does. -/

namespace Sys2Proof.Machine

/-- The name of each register in the syntax (R20, R77). -/
def regName : Reg → String
  | .scalar .q => "Q"
  | .scalar .qdash => "QDASH"
  | .scalar .twiddle => "TWIDDLE"
  | .wide .omega => "OMEGA"
  | .wide .psi => "PSI"
  | .scalar .omegaIdx => "OMEGA_IDX"
  | .scalar .psiIdx => "PSI_IDX"
  | .scalar .j => "J"
  | .scalar .da0 => "DA0"
  | .scalar .da1 => "DA1"
  | .scalar .m => "M"
  | .scalar .j2 => "J2"
  | .scalar .mode => "MODE"

/-- The lower-case mnemonic of each operation (R77). -/
def opName : Op → String
  | .read => "read"
  | .readPending => "read_pending"
  | .write => "write"
  | .readLane => "read_lane"
  | .writeLane => "write_lane"
  | .increment => "increment"
  | .setFromCounter => "set_from_counter"
  | .loadFromPsi => "load_from_psi"
  | .negateModQ => "negate_mod_q"
  | .updateByOmega => "update_by_omega"
  | .update => "update"
  | .commit => "commit"
  | .abort => "abort"
  | .changes => "changes"
  | .peek => "peek"
  | .wipe => "wipe"

/-- Every operation of R73. -/
def allOps : List Op :=
  [.read, .readPending, .write, .readLane, .writeLane, .increment, .setFromCounter, .loadFromPsi, .negateModQ,
    .updateByOmega, .update, .commit, .abort, .changes, .peek, .wipe]

/-- A space or a tab. -/
def isBlank (c : Char) : Bool := c == ' ' || c == '\t'

/-- A text without the blanks at its two ends. -/
def trimBlanks (t : List Char) : List Char := ((t.dropWhile isBlank).reverse.dropWhile isBlank).reverse

/-- The parts of a text between commas; a text without a comma is one part. -/
def splitCommas : List Char → List (List Char)
  | [] => [[]]
  | c :: t =>
    match splitCommas t with
    | [] => [[c]]
    | p :: ps => if c == ',' then [] :: p :: ps else (c :: p) :: ps

/-- The value of a decimal digit. -/
def decimalDigit (c : Char) : Option Nat := if '0' ≤ c ∧ c ≤ '9' then some (c.toNat - '0'.toNat) else none

/-- The value of a hexadecimal digit, in either case. -/
def hexadecimalDigit (c : Char) : Option Nat :=
  if 'a' ≤ c ∧ c ≤ 'f' then some (c.toNat - 'a'.toNat + 10)
  else if 'A' ≤ c ∧ c ≤ 'F' then some (c.toNat - 'A'.toNat + 10)
  else decimalDigit c

/-- The number a non-empty list of digits writes, most significant first. -/
def digitsValue (base : Nat) (digit : Char → Option Nat) : List Char → Nat → Option Nat
  | [], n => some n
  | c :: t, n =>
    match digit c with
    | some d => digitsValue base digit t (base * n + d)
    | none => none

/-- A hexadecimal number (`0x` and digits) or a decimal number (R77). -/
def numberOfText : List Char → Option Nat
  | '0' :: 'x' :: c :: t => digitsValue 16 hexadecimalDigit (c :: t) 0
  | [] => none
  | c :: t => digitsValue 10 decimalDigit (c :: t) 0

/-- A register operand: its name of R20, or `r<n>` with n in 0 to 12 (R77). -/
def regOfText (t : List Char) : Option Reg :=
  match allRegs.find? fun r => (regName r).toList == t with
  | some r => some r
  | none =>
    match t with
    | 'r' :: c :: ds => (digitsValue 10 decimalDigit (c :: ds) 0).bind Reg.ofIndex
    | _ => none

/-- A lane operand: a number the 4-bit lane field can carry (R71, R77). -/
def laneOfText (t : List Char) : Option (BitVec 4) :=
  match numberOfText t with
  | some n => if n < 16 then some (BitVec.ofNat 4 n) else none
  | none => none

/-- The event of an operation on a register. -/
def eventOf (op : Op) (r : Reg) (lane : BitVec 4) (wdata : Nat) : HostEvent :=
  .command (commandWord op (BitVec.ofNat 5 r.index) lane) wdata

/-- A command from its operation and its operands (R77): `load_from_psi`, `negate_mod_q` and `update_by_omega` take
none, and the assembler supplies `reg = 2`. The write data are 0 where the command has no value operand. -/
def assembleOp (op : Op) (operands : List (List Char)) : Option HostEvent :=
  match op, operands with
  | .read, [r] | .readPending, [r] | .increment, [r] | .setFromCounter, [r] | .update, [r] =>
    (regOfText r).map fun r => eventOf op r 0 0
  | .write, [r, v] =>
    match regOfText r, numberOfText v with
    | some r, some v => some (eventOf .write r 0 v)
    | _, _ => none
  | .readLane, [r, k] =>
    match regOfText r, laneOfText k with
    | some r, some k => some (eventOf .readLane r k 0)
    | _, _ => none
  | .writeLane, [r, k, v] =>
    match regOfText r, laneOfText k, numberOfText v with
    | some r, some k, some v => some (eventOf .writeLane r k v)
    | _, _, _ => none
  | .loadFromPsi, [] | .negateModQ, [] | .updateByOmega, [] => some (eventOf op (.scalar .twiddle) 0 0)
  | .commit, [] | .abort, [] | .changes, [] | .peek, [] | .wipe, [] => some (.command (commandWord op 0 0) 0)
  | _, _ => none

/-- The operands of the text after a mnemonic: none when it is blank, else its parts between commas. -/
def operandsOf (t : List Char) : List (List Char) :=
  if trimBlanks t = [] then [] else (splitCommas t).map trimBlanks

/-- One line of the textual syntax (R77): what the host presents for it, nothing for a line that holds no command, and
`none` for a text that is no line of the syntax. -/
def assembleLine (line : String) : Option (List HostEvent) :=
  let text := trimBlanks (line.toList.takeWhile (· != ';'))
  if text = [] then some []
  else
    match allOps.find? fun op => (opName op).toList == text.takeWhile (fun c => !isBlank c) with
    | some op => (assembleOp op (operandsOf (text.dropWhile fun c => !isBlank c))).map fun e => [e]
    | none => none

end Sys2Proof.Machine
end

