-- ==== Sys2Proof/Safety.lean ====
section
/-! DEFINITION. The terms claims are stated in: the invariant of the pending set, what a good run is for the host
(70_reset_and_hazards.md R236, R237), and what one command may change (frames). -/

namespace Sys2Proof.Machine

/-- The invariant of R33: a register is in the pending set exactly when it holds a pending value. -/
def State.PendingInvariant (s : State) : Prop := ∀ r : Reg, s.isDirty r = true ↔ s.pending r ≠ none

/-- No fault is recorded, the premise claims take (R204, R237). -/
def State.NoFault (s : State) : Prop := s.fault = none

/-- No cycle is open: the pending set is empty and nothing is pending (R13, R33; U17: a final state is closed). -/
def State.CycleClosed (s : State) : Prop := ∀ r : Reg, s.isDirty r = false ∧ s.pending r = none

/-- The modulus pair the host must load (R236): `QDASH = -Q^-1 mod 2^32` with `Q` odd and at most `2^31`. -/
def ModulusPair (q qd : Nat) : Prop := (q * qd + 1) % 2 ^ 32 = 0 ∧ q % 2 = 1 ∧ q ≤ 2 ^ 31

/-- The commands of a part of a cycle, each with its write data, executed in order (R13, R70). -/
def runCommands : List (Instr × Nat) → State → Answer
  | [], s => .next s
  | (i, d) :: rest, s =>
    match exec i { s with wdata := d } with
    | .next t => runCommands rest t
    | .fault f => .fault f
    | .refused f => .refused f

/-- `t` is `s` after one staging (R34): register `r` holds the pending value `v` and is in P; every other register's
pending value and flag, every current value, the fault record and the host's side are unchanged; the outputs are those
of a command that is no read (R72). -/
def StagesOnly (s : State) (r : Reg) (v : RegValue) (t : State) : Prop :=
  t.pending r = some v ∧ t.isDirty r = true ∧
  (∀ r', r' ≠ r → t.pending r' = s.pending r' ∧ t.isDirty r' = s.isDirty r') ∧
  (∀ r', t.current r' = s.current r') ∧ t.fault = s.fault ∧ t.host = s.host ∧ t.wdata = s.wdata ∧
  t.out = { rdata := 0, rdataX := false, faultOut := none, list := .none }

/-- `t` is `s` with other outputs: no register, pending value, flag or record changes (R58). -/
def AnswersOnly (s : State) (o : Output) (t : State) : Prop :=
  (∀ r, t.current r = s.current r ∧ t.pending r = s.pending r ∧ t.isDirty r = s.isDirty r) ∧ t.fault = s.fault ∧
  t.host = s.host ∧ t.wdata = s.wdata ∧ t.out = o

/-- `t` is `s` after the fault `f` (R202, R203): nothing changes but the record, which keeps the first fault, and the
outputs, which carry the code alone. -/
def RaisesOnly (s : State) (f : BlockFault) (t : State) : Prop :=
  (∀ r, t.current r = s.current r ∧ t.pending r = s.pending r ∧ t.isDirty r = s.isDirty r) ∧
  t.fault = some (s.fault.getD f) ∧ t.host = s.host ∧ t.wdata = s.wdata ∧
  t.out = { rdata := 0, rdataX := false, faultOut := some f.code, list := .none }

/-- The commands that only read (R58): READ, READ_PENDING, READ_LANE of a lane that exists (R55), CHANGES and PEEK. -/
def isRead (i : Instr) : Prop :=
  (∃ r, i = .read r) ∨ (∃ r, i = .readPending r) ∨
    (∃ (w : Wide) (k : BitVec 4), i = .readLane (.wide w) k ∧ k.toNat < 8) ∨ i = .changes ∨ i = .peek

/-- The outputs of a read that finds a Known number (R72). -/
def knownOutput (v : WideWord) : Output := { rdata := v, rdataX := false, faultOut := none, list := .none }

/-- The outputs of a read that finds X (R72). -/
def unknownOutput : Output := { rdata := 0, rdataX := true, faultOut := none, list := .none }

end Sys2Proof.Machine
end

