-- ==== Sys2Proof/Certificates/Slice0/Obligations.lean ====
section
/-! DEFINITION. The statements about the block, for the provers. A docstring names the rule of spec/ a statement
formalises; a statement that rests on a decision the spec marks as its own names that decision. -/

open Sys2Proof Sys2Proof.Machine

/-! Encoding -/

/-- 30_encoding.md section 2: the word of every well-formed command decodes to that command. -/
def Obligations.DecodeOfEncodeIsTheCommand : Prop :=
  ∀ i : Instr, i.wellFormed = true → decode (encode i) = .ok i

/-- 30_encoding.md sections 2 and 3: a word that decodes is the word of the command it decodes to, and that command is
well formed; so no bit of a legal word is ignored. -/
def Obligations.EncodeOfDecodeIsTheWord : Prop :=
  ∀ (cmd : BitVec 32) (i : Instr), decode cmd = .ok i → encode i = cmd ∧ i.wellFormed = true

/-- Words of 30_encoding.md section 3 and of 95_test_vectors.md L2.1, one or more for each family. -/
def Obligations.DecodesTheWordsOfTheSpec : Prop :=
  decode 0x00000003 = .ok (.write (.scalar .q)) ∧ decode 0x00000023 = .ok (.write (.scalar .qdash)) ∧
  decode 0x00000C64 = .ok (.readLane (.wide .omega) 3) ∧ decode 0x00001C85 = .ok (.writeLane (.wide .psi) 7) ∧
  decode 0x00000062 = .ok (.readPending (.wide .omega)) ∧ decode 0x000000E6 = .ok (.increment (.scalar .j)) ∧
  decode 0x00000127 = .ok .setFromCounterDa1 ∧ decode 0x0000004A = .ok .updateByOmega ∧
  decode 0x0000008B = .ok .updatePsi ∧ decode 0x0000016B = .ok .updateJ2 ∧ decode 0x00000010 = .ok .commit ∧
  decode 0x00000014 = .ok .wipe

/-- 30_encoding.md section 3, by field number (decisions D13, D14): which words are illegal, and that each raises
ILLEGAL_COMMAND and changes nothing else. The five lines are the five kinds of illegal word. -/
def Obligations.IllegalWordsRaiseIllegalCommand : Prop :=
  ∀ (s : State) (cmd : BitVec 32) (d : Nat) (rest : List HostEvent), s.host = .command cmd d :: rest →
    (let op := cmd.toNat % 32
     let reg := cmd.toNat / 32 % 32
     let lane := cmd.toNat / 1024 % 16
     let res := cmd.toNat / 16384
     res ≠ 0 ∨
     (op = 0 ∨ (0x0C ≤ op ∧ op ≤ 0x0F) ∨ 0x15 ≤ op) ∨
     ((0x10 ≤ op ∧ op ≤ 0x14) ∧ (reg ≠ 0 ∨ lane ≠ 0)) ∨
     ((1 ≤ op ∧ op ≤ 0x0B) ∧
       (12 < reg ∨ ((op = 4 ∨ op = 5) ∧ reg ≠ 3 ∧ reg ≠ 4) ∨ (op = 6 ∧ (reg < 5 ∨ 9 < reg)) ∨
        (op = 7 ∧ reg ≠ 8 ∧ reg ≠ 9) ∨ ((op = 8 ∨ op = 9 ∨ op = 10) ∧ reg ≠ 2) ∨
        (op = 11 ∧ reg ≠ 3 ∧ reg ≠ 4 ∧ reg ≠ 10 ∧ reg ≠ 11))) ∨
     ((1 ≤ op ∧ op ≤ 0x0B ∧ op ≠ 4 ∧ op ≠ 5) ∧ lane ≠ 0)) →
    ∃ t, step s = .next t ∧ RaisesOnly { s with host := rest, wdata := d } (.illegalCommand cmd) t

/-- 10_state.md section 3 (decision D13): a command on a register that the kind table does not list for it raises
ILLEGAL_COMMAND with the command's word and changes nothing else. -/
def Obligations.IllFormedCommandsRaiseIllegalCommand : Prop :=
  ∀ (i : Instr) (s : State), i.wellFormed = false →
    ∃ t, exec i s = .next t ∧ RaisesOnly s (.illegalCommand (encode i)) t

/-- 30_encoding.md section 4 (R77 is decision D14; how a line is cut into words is the model's, log 11): lines of
the textual syntax and the words of 95_test_vectors.md. -/
def Obligations.SyntaxLinesGiveTheirWords : Prop :=
  assembleLine "write Q, 0xD01" = some [.command 0x00000003 0xD01] ∧
  assembleLine "write_lane PSI, 7, 0xCAFE ; the last lane" = some [.command 0x00001C85 0xCAFE] ∧
  assembleLine "read_lane OMEGA, 3" = some [.command 0x00000C64 0] ∧
  assembleLine "update_by_omega" = some [.command 0x0000004A 0] ∧
  assembleLine "update r4" = some [.command 0x0000008B 0] ∧ assembleLine "commit" = some [.command 0x00000010 0] ∧
  assembleLine "read r13" = none

/-! The step, reset and the host's side -/

/-- 30_encoding.md section 1: when the word the host presents next decodes to a command, one step takes it off the
queue, puts its write data on the bus, and is the meaning of that command. -/
def Obligations.StepRunsTheDecodedCommand : Prop :=
  ∀ (s : State) (cmd : BitVec 32) (d : Nat) (rest : List HostEvent) (i : Instr),
    s.host = .command cmd d :: rest → decode cmd = .ok i → step s = exec i { s with host := rest, wdata := d }

/-- The model's choice (log 1): with nothing presented there is no command to execute, and the step stops by name. -/
def Obligations.StepWithoutACommandStops : Prop :=
  ∀ s : State, s.host = [] → step s = .fault .noCommand

/-- 10_state.md section 6 and 70_reset_and_hazards.md section 1 (decision D21): what the reset input leaves, from any
state. That the host's queue goes on and the outputs are cleared is the model's choice (log 10). -/
def Obligations.ResetInputClearsTheBlock : Prop :=
  ∀ (s : State) (rest : List HostEvent), s.host = .reset :: rest →
    ∃ t, step s = .next t ∧ t.host = rest ∧ t.fault = none ∧
      (∀ r, t.pending r = none ∧ t.isDirty r = false) ∧
      (∀ c : Scalar, t.current (.scalar c) = .scalar (.known 0)) ∧
      (∀ w : Wide, t.current (.wide w) = .wide (Vector.replicate 8 (.known 0)))

/-- 10_state.md section 6 (decision D21): every piece of the block's state at reset. -/
def Obligations.ResetStateIsAllZeroAndClean : Prop :=
  (∀ c : Scalar, State.reset.current (.scalar c) = .scalar (.known 0)) ∧
  (∀ w : Wide, State.reset.current (.wide w) = .wide (Vector.replicate 8 (.known 0))) ∧
  State.reset.CycleClosed ∧ State.reset.NoFault

/-! Invariants and whole-machine rules -/

/-- R33: every step keeps the invariant of the pending set, from every state that meets it. -/
def Obligations.StepKeepsThePendingInvariant : Prop :=
  ∀ s t : State, s.PendingInvariant → step s = .next t → t.PendingInvariant

/-- The reset state meets the invariant of R33. -/
def Obligations.ResetMeetsThePendingInvariant : Prop := State.reset.PendingInvariant

/-- 60_exceptions.md section 1 and 43_register_file.md section 1: where R33 holds, no step raises
PENDING_INCONSISTENT and none records it. Where the model raises it otherwise is log 5. -/
def Obligations.PendingInconsistencyIsUnreachable : Prop :=
  ∀ s t : State, s.PendingInvariant → s.fault ≠ some .pendingInconsistent → step s = .next t →
    t.out.faultOut ≠ some .pendingInconsistent ∧ t.fault ≠ some .pendingInconsistent

/-- 60_exceptions.md section 1 and 20_memory.md section 2: every command on every state ends in a next state. -/
def Obligations.EveryCommandAnswersANextState : Prop :=
  ∀ (i : Instr) (s : State), ∃ t, exec i s = .next t

/-- R203: whatever command reports a fault code, and whatever word is presented that leads to one, the state after it
is the state before it plus the record, and the outputs carry the code alone. -/
def Obligations.FaultsAreExact : Prop :=
  (∀ (i : Instr) (s t : State) (c : FaultCode), exec i s = .next t → t.out.faultOut = some c →
    ∃ f : BlockFault, f.code = c ∧ RaisesOnly s f t) ∧
  (∀ (s t : State) (cmd : BitVec 32) (d : Nat) (rest : List HostEvent) (c : FaultCode),
    s.host = .command cmd d :: rest → step s = .next t → t.out.faultOut = some c →
    ∃ f : BlockFault, f.code = c ∧ RaisesOnly { s with host := rest, wdata := d } f t)

/-- 10_state.md section 5 and 60_exceptions.md section 1 (decision D17): in every step but the reset input a recorded
fault stays, and the record changes only from none, by a command that reports that fault. -/
def Obligations.TheFirstFaultIsKept : Prop :=
  ∀ s t : State, (∀ rest, s.host ≠ .reset :: rest) → step s = .next t →
    (∀ f, s.fault = some f → t.fault = some f) ∧
    (s.fault = none → (t.out.faultOut = none ∧ t.fault = none) ∨ ∃ f, t.fault = some f ∧ t.out.faultOut = some f.code)

/-- 60_exceptions.md section 1 (the codes are decision D15): the number of each fault code. -/
def Obligations.FaultCodesAreNumbered : Prop :=
  ∀ (r : Reg) (n : Nat) (v q : Word) (cmd : BitVec 32),
    (BlockFault.rangeLaneIndex r n).code.number = 1 ∧ (BlockFault.rangeValue r n).code.number = 2 ∧
    (BlockFault.overflow r v).code.number = 3 ∧ (BlockFault.negPrecondition r v q).code.number = 4 ∧
    (BlockFault.illegalCommand cmd).code.number = 5 ∧ BlockFault.pendingInconsistent.code.number = 6

/-- 20_memory.md section 4 and 00_scope.md section 5: no sequence of commands without COMMIT changes a current value. -/
def Obligations.OnlyCommitChangesCurrentValues : Prop :=
  ∀ (cs : List (Instr × Nat)) (s t : State), (∀ c ∈ cs, c.1 ≠ .commit) → runCommands cs s = .next t →
    ∀ r, t.current r = s.current r

/-- R58: a read changes nothing but the outputs, and after any further reads it gives the same answer. A READ_LANE
whose lane field is out of range is a fault, not a read. -/
def Obligations.ReadsChangeNoState : Prop :=
  ∀ (i : Instr) (s : State), isRead i →
    ∃ (o : Output) (t : State), exec i s = .next t ∧ AnswersOnly s o t ∧
      ∀ (js : List (Instr × Nat)) (u : State), (∀ c ∈ js, isRead c.1) → runCommands js t = .next u →
        ∃ v, exec i u = .next v ∧ v.out = o

/-- R61: a computing command reads current values only. On two states with the same current values, whatever is
pending in either, it stages the same value in the same register or raises the same fault. -/
def Obligations.ComputingCommandsReadCurrentValuesOnly : Prop :=
  ∀ (i : Instr) (s₁ s₂ : State),
    ((∃ r, i = .increment r) ∨ i = .setFromCounterDa0 ∨ i = .setFromCounterDa1 ∨ i = .loadFromPsi ∨ i = .negateModQ ∨
      i = .updateByOmega ∨ i = .updateOmega ∨ i = .updatePsi ∨ i = .updateM ∨ i = .updateJ2) →
    (∀ r, s₁.current r = s₂.current r) →
    ∃ t₁ t₂, exec i s₁ = .next t₁ ∧ exec i s₂ = .next t₂ ∧
      ((∃ r v, StagesOnly s₁ r v t₁ ∧ StagesOnly s₂ r v t₂) ∨ (∃ f, RaisesOnly s₁ f t₁ ∧ RaisesOnly s₂ f t₂))

/-- 20_memory.md section 4 (R64, which the spec derives): commands to different registers commute. Whatever the two
commands that name a register are, the two orders leave the same current values, pending values and pending set; and
the same fault record when at most one of them reports a fault. -/
def Obligations.CommandsToDifferentRegistersCommute : Prop :=
  ∀ (i j : Instr) (ri rj : Reg) (di dj : Nat) (s a b c d : State),
    i.reg? = some ri → j.reg? = some rj → ri ≠ rj →
    exec i { s with wdata := di } = .next a → exec j { a with wdata := dj } = .next b →
    exec j { s with wdata := dj } = .next c → exec i { c with wdata := di } = .next d →
    (∀ r, b.current r = d.current r ∧ b.pending r = d.pending r ∧ b.isDirty r = d.isDirty r) ∧
    (a.out.faultOut = none ∨ b.out.faultOut = none → b.fault = d.fault)

/-- R245: whatever commands a cycle has issued before it closes, ABORT brings back the state of its start: every
current value as it was, and nothing pending. -/
def Obligations.AbortReturnsToTheStartOfTheCycle : Prop :=
  ∀ (cs : List (Instr × Nat)) (s a : State), s.CycleClosed → (∀ c ∈ cs, c.1 ≠ .commit) →
    runCommands cs s = .next a →
    ∃ t, exec .abort a = .next t ∧ t.CycleClosed ∧ ∀ r, t.current r = s.current r

/-! Register access and the lane accumulator -/

/-- R100, R101: READ answers the current value, never a fault. A scalar register answers its value zero-extended; a
wide one answers the number whose bits 32k+31 to 32k are lane k, if every lane is Known; otherwise the answer is the X
indication. -/
def Obligations.ReadAnswersTheCurrentValue : Prop :=
  (∀ (c : Scalar) (s : State), decode (BitVec.ofNat 32 (0x01 + 32 * (Reg.scalar c).index)) = .ok (.read (.scalar c)) ∧
    ∃ t, exec (.read (.scalar c)) s = .next t ∧
      match s.cur.scalar c with
      | .known v => AnswersOnly s (knownOutput (BitVec.ofNat 256 v.toNat)) t
      | .x => AnswersOnly s unknownOutput t) ∧
  (∀ (w : Wide) (s : State), decode (BitVec.ofNat 32 (0x01 + 32 * (Reg.wide w).index)) = .ok (.read (.wide w)) ∧
    ∃ t, exec (.read (.wide w)) s = .next t ∧
      ((∃ n : WideWord, (∀ k : Fin 8, (s.cur.wide w)[k] = .known (n.extractLsb' (32 * k) 32)) ∧
          AnswersOnly s (knownOutput n) t) ∨
        ((∃ k : Fin 8, (s.cur.wide w)[k] = .x) ∧ AnswersOnly s unknownOutput t)))

/-- R102: READ_PENDING answers the pending value if there is one, else the current value, as R100 answers a value. -/
def Obligations.ReadPendingFallsBackToTheCurrentValue : Prop :=
  ∀ (r : Reg) (s : State),
    decode (BitVec.ofNat 32 (0x02 + 32 * r.index)) = .ok (.readPending r) ∧
    ∃ t, exec (.readPending r) s = .next t ∧
      match (s.pending r).getD (s.current r) with
      | .scalar (.known v) => AnswersOnly s (knownOutput (BitVec.ofNat 256 v.toNat)) t
      | .scalar .x => AnswersOnly s unknownOutput t
      | .wide l =>
        (∃ n : WideWord, (∀ k : Fin 8, l[k] = .known (n.extractLsb' (32 * k) 32)) ∧ AnswersOnly s (knownOutput n) t) ∨
        ((∃ k : Fin 8, l[k] = .x) ∧ AnswersOnly s unknownOutput t)

/-- 40_register_access.md section 1 (the range check is decision D12): WRITE stages the whole value in any of the 13
registers, or raises RANGE_VALUE when the data do not fit the register's width. -/
def Obligations.WriteStagesTheWholeValue : Prop :=
  (∀ (c : Scalar) (s : State),
    (s.wdata < 2 ^ 32 → ∃ t, exec (.write (.scalar c)) s = .next t ∧
      StagesOnly s (.scalar c) (.scalar (.known (BitVec.ofNat 32 s.wdata))) t) ∧
    (2 ^ 32 ≤ s.wdata → ∃ t, exec (.write (.scalar c)) s = .next t ∧
      RaisesOnly s (.rangeValue (.scalar c) s.wdata) t)) ∧
  (∀ (w : Wide) (s : State),
    (s.wdata < 2 ^ 256 → ∃ (l : Lanes) (t : State), exec (.write (.wide w)) s = .next t ∧
      StagesOnly s (.wide w) (.wide l) t ∧
      ∀ k : Fin 8, l[k] = .known ((BitVec.ofNat 256 s.wdata).extractLsb' (32 * k) 32)) ∧
    (2 ^ 256 ≤ s.wdata → ∃ t, exec (.write (.wide w)) s = .next t ∧ RaisesOnly s (.rangeValue (.wide w) s.wdata) t))

/-- R106: READ_LANE answers one lane of the current value, whatever the other lanes are, or raises RANGE_LANE_INDEX. -/
def Obligations.ReadLaneAnswersOneLane : Prop :=
  ∀ (w : Wide) (k : BitVec 4) (s : State),
    decode (BitVec.ofNat 32 (0x04 + 32 * (Reg.wide w).index + 1024 * k.toNat)) = .ok (.readLane (.wide w) k) ∧
    (∀ h : k.toNat < 8, ∃ t, exec (.readLane (.wide w) k) s = .next t ∧
      match (s.cur.wide w)[k.toNat] with
      | .known v => AnswersOnly s (knownOutput (BitVec.ofNat 256 v.toNat)) t
      | .x => AnswersOnly s unknownOutput t) ∧
    (8 ≤ k.toNat → ∃ t, exec (.readLane (.wide w) k) s = .next t ∧
      RaisesOnly s (.rangeLaneIndex (.wide w) k.toNat) t)

/-- 40_register_access.md section 2 (the order of the two checks is decision D16): WRITE_LANE puts the value into one
lane of the pending value, or of the current value when none is pending, and keeps the other 7 lanes, X lanes included;
a bad lane index is reported before an oversized value. -/
def Obligations.WriteLaneMergesOneLane : Prop :=
  ∀ (w : Wide) (k : BitVec 4) (s : State),
    (k.toNat < 8 → s.wdata < 2 ^ 32 → ∃ (l : Lanes) (t : State), exec (.writeLane (.wide w) k) s = .next t ∧
      StagesOnly s (.wide w) (.wide l) t ∧
      ∀ j : Fin 8, l[j] = if j.val = k.toNat then .known (BitVec.ofNat 32 s.wdata)
        else ((s.pend.wide w).getD (s.cur.wide w))[j]) ∧
    (k.toNat < 8 → 2 ^ 32 ≤ s.wdata → ∃ t, exec (.writeLane (.wide w) k) s = .next t ∧
      RaisesOnly s (.rangeValue (.wide w) s.wdata) t) ∧
    (8 ≤ k.toNat → ∃ t, exec (.writeLane (.wide w) k) s = .next t ∧
      RaisesOnly s (.rangeLaneIndex (.wide w) k.toNat) t)

/-- 40_register_access.md section 2 (R110, which the spec derives): a lane write and a COMMIT, with nothing else
pending for the register, change that lane and no other lane. -/
def Obligations.LaneWritesAreIndependent : Prop :=
  ∀ (w : Wide) (k : BitVec 4) (j : Fin 8) (d : Nat) (s : State), s.PendingInvariant → s.pend.wide w = none →
    k.toNat < 8 → j.val ≠ k.toNat → d < 2 ^ 32 →
    ∃ t, runCommands [(.writeLane (.wide w) k, d), (.commit, 0)] s = .next t ∧
      (t.cur.wide w)[j] = (s.cur.wide w)[j] ∧ ∀ h : k.toNat < 8, (t.cur.wide w)[k.toNat] = .known (BitVec.ofNat 32 d)

/-- 40_register_access.md section 2 (R111, which the spec derives): of two writes to one lane in one cycle the second
wins, and every other lane keeps its value from before the cycle. -/
def Obligations.RepeatedLaneWriteKeepsTheSecond : Prop :=
  ∀ (w : Wide) (k : BitVec 4) (a b : Nat) (s : State), s.PendingInvariant → s.pend.wide w = none →
    k.toNat < 8 → a < 2 ^ 32 → b < 2 ^ 32 →
    ∃ t, runCommands [(.writeLane (.wide w) k, a), (.writeLane (.wide w) k, b), (.commit, 0)] s = .next t ∧
      ∀ j : Fin 8, (t.cur.wide w)[j] =
        if j.val = k.toNat then .known (BitVec.ofNat 32 b) else (s.cur.wide w)[j]

/-! Counters, derived addresses and strides -/

/-- R120: INCREMENT on each of the five counters stages the current value plus one; an X counter stages X; a saturated
counter raises OVERFLOW and stages nothing. -/
def Obligations.IncrementSaturates : Prop :=
  ∀ (c : Scalar) (s : State), (c = .omegaIdx ∨ c = .psiIdx ∨ c = .j ∨ c = .da0 ∨ c = .da1) →
    decode (BitVec.ofNat 32 (0x06 + 32 * (Reg.scalar c).index)) = .ok (.increment (.scalar c)) ∧
    ∃ t, exec (.increment (.scalar c)) s = .next t ∧
      match s.cur.scalar c with
      | .x => StagesOnly s (.scalar c) (.scalar .x) t
      | .known v =>
        if v.toNat = 2 ^ 32 - 1 then RaisesOnly s (.overflow (.scalar c) v) t
        else StagesOnly s (.scalar c) (.scalar (.known (BitVec.ofNat 32 (v.toNat + 1)))) t

/-- 41_counters.md section 1 (R121, which the spec derives): a saturated counter keeps its value through INCREMENT and
the close of the cycle, whichever close it is. -/
def Obligations.SaturatedCounterKeepsItsValue : Prop :=
  ∀ (c : Scalar) (s : State), (c = .omegaIdx ∨ c = .psiIdx ∨ c = .j ∨ c = .da0 ∨ c = .da1) →
    s.CycleClosed → s.cur.scalar c = .known 0xFFFFFFFF →
    ∃ a, exec (.increment (.scalar c)) s = .next a ∧ a.out.faultOut = some .overflow ∧
      ∀ close : Instr, (close = .commit ∨ close = .abort) →
        ∃ t, exec close a = .next t ∧ t.cur.scalar c = .known 0xFFFFFFFF

/-- R122: bit j of the reversed byte is bit 7 - j of the byte; the function is its own inverse and a permutation. -/
def Obligations.BitReversalReversesTheByte : Prop :=
  (∀ (b : BitVec 8) (j : Fin 8), (rev8 b).getLsbD j = b.getLsbD (7 - j)) ∧ (∀ b, rev8 (rev8 b) = b) ∧
  Function.Bijective rev8 ∧ rev8 0x33 = 0xCC ∧ rev8 0x01 = 0x80 ∧ rev8 0x80 = 0x01 ∧ rev8 0xFF = 0xFF ∧
  rev8 0x00 = 0x00 ∧ rev8 0x0F = 0xF0 ∧ rev8 0x12 = 0x48

/-- R124: SET_FROM_COUNTER on DA0 stages the bit-reversed low byte of J: a value below 256 whose bit j is bit 7 - j of
J. An X counter stages X. -/
def Obligations.PlainAddressIsTheReversedLowByte : Prop :=
  ∀ s : State, decode 0x00000107 = .ok .setFromCounterDa0 ∧
    ∃ t, exec .setFromCounterDa0 s = .next t ∧
      match s.cur.scalar .j with
      | .x => StagesOnly s (.scalar .da0) (.scalar .x) t
      | .known c => ∃ v : Word, StagesOnly s (.scalar .da0) (.scalar (.known v)) t ∧ v.toNat < 256 ∧
          v.toNat / 8 < 32 ∧ ∀ j < 8, v.getLsbD j = c.getLsbD (7 - j)

/-- 41_counters.md section 2 (that the stride is M is decision D6): SET_FROM_COUNTER on DA1 stages the bit-reversed low
byte of J plus M, modulo 256, as a 32-bit value; X when J or M is X. -/
def Obligations.OffsetAddressAddsTheStride : Prop :=
  ∀ s : State, decode 0x00000127 = .ok .setFromCounterDa1 ∧
    ∃ t, exec .setFromCounterDa1 s = .next t ∧
      match s.cur.scalar .j, s.cur.scalar .m with
      | .known c, .known m => ∃ b : BitVec 8, (∀ j < 8, b.getLsbD j = c.getLsbD (7 - j)) ∧
          StagesOnly s (.scalar .da1) (.scalar (.known (BitVec.ofNat 32 ((b.toNat + m.toNat) % 256)))) t
      | _, _ => StagesOnly s (.scalar .da1) (.scalar .x) t

/-- 10_state.md section 2 (conflict C3): the two fields of a derived-address counter put together are its value; the
register field fits 5 bits exactly when the value is below 256. -/
def Obligations.DerivedFieldsSplitTheValue : Prop :=
  ∀ v : Word, registerSelect v * 8 + laneSelect v = v.toNat ∧ laneSelect v < 8 ∧
    (registerSelect v < 32 ↔ v.toNat < 256)

/-- R128: UPDATE on M. With MODE bit 0 set the low 7 bits move up one place; with it clear the low 8 bits move down
one place; X when M or MODE is X. -/
def Obligations.UpdateMShiftsTheStride : Prop :=
  ∀ s : State, decode 0x0000014B = .ok .updateM ∧
    ∃ t, exec .updateM s = .next t ∧
      match s.cur.scalar .m, s.cur.scalar .mode with
      | .known v, .known f =>
        (f.toNat % 2 = 1 → StagesOnly s (.scalar .m) (.scalar (.known (BitVec.ofNat 32 (v.toNat % 128 * 2)))) t) ∧
        (f.toNat % 2 = 0 → StagesOnly s (.scalar .m) (.scalar (.known (BitVec.ofNat 32 (v.toNat % 256 / 2)))) t)
      | _, _ => StagesOnly s (.scalar .m) (.scalar .x) t

/-- 41_counters.md section 3 (decision D5, the spec's reading of "the complementary transform"): UPDATE on J2 is
UPDATE on M with the two mode cases exchanged. -/
def Obligations.UpdateJ2ShiftsTheOtherWay : Prop :=
  ∀ s : State, decode 0x0000016B = .ok .updateJ2 ∧
    ∃ t, exec .updateJ2 s = .next t ∧
      match s.cur.scalar .j2, s.cur.scalar .mode with
      | .known v, .known f =>
        (f.toNat % 2 = 1 → StagesOnly s (.scalar .j2) (.scalar (.known (BitVec.ofNat 32 (v.toNat % 256 / 2)))) t) ∧
        (f.toNat % 2 = 0 → StagesOnly s (.scalar .j2) (.scalar (.known (BitVec.ofNat 32 (v.toNat % 128 * 2)))) t)
      | _, _ => StagesOnly s (.scalar .j2) (.scalar .x) t

/-- 41_counters.md section 3 (R131, which the spec derives; J2's side rests on decision D5): cycles of UPDATE on M and
UPDATE on J2, each committed, from M = J2 = 1 with the mode flag set: after n + 1 cycles M is 2^(n+1) up to 0x80 and
then 0 for ever, and J2 is 0. -/
def Obligations.StrideScheduleRunsToZero : Prop :=
  ∀ (s : State) (f : Word) (n : Nat), s.CycleClosed → s.cur.scalar .mode = .known f → f.toNat % 2 = 1 →
    s.cur.scalar .m = .known 1 → s.cur.scalar .j2 = .known 1 →
    ∃ t, runCommands (List.replicate (n + 1) [((.updateM : Instr), 0), (.updateJ2, 0), (.commit, 0)]).flatten s =
        .next t ∧
      t.cur.scalar .m = .known (if n < 7 then BitVec.ofNat 32 (2 ^ (n + 1)) else 0) ∧ t.cur.scalar .j2 = .known 0

/-! The Montgomery engine and the Twiddle, Omega and Psi registers -/

/-- 42_arithmetic.md section 3 (lane selection by the whole counter is decision D8): LOAD_FROM_PSI stages the PSI lane
PSI_IDX selects, X for an X counter, and raises RANGE_LANE_INDEX for a counter of 8 or more. -/
def Obligations.LoadFromPsiStagesTheSelectedLane : Prop :=
  ∀ s : State, ∃ t, exec .loadFromPsi s = .next t ∧
    match s.cur.scalar .psiIdx with
    | .x => StagesOnly s (.scalar .twiddle) (.scalar .x) t
    | .known c =>
      (∀ k : Fin 8, c.toNat = k.val → StagesOnly s (.scalar .twiddle) (.scalar (s.cur.wide .psi)[k]) t) ∧
      (8 ≤ c.toNat → RaisesOnly s (.rangeLaneIndex (.scalar .psiIdx) c.toNat) t)

/-- 42_arithmetic.md section 3 (the fault is decision D10): NEGATE_MOD_Q stages `q - v` when `v < q`, raises
NEG_PRECONDITION when `q <= v`, and stages X when either is X. -/
def Obligations.NegateModQSubtractsFromQ : Prop :=
  ∀ s : State, ∃ t, exec .negateModQ s = .next t ∧
    match s.cur.scalar .twiddle, s.cur.scalar .q with
    | .known v, .known q =>
      (v.toNat < q.toNat →
        StagesOnly s (.scalar .twiddle) (.scalar (.known (BitVec.ofNat 32 (q.toNat - v.toNat)))) t) ∧
      (q.toNat ≤ v.toNat → RaisesOnly s (.negPrecondition (.scalar .twiddle) v q) t)
    | _, _ => StagesOnly s (.scalar .twiddle) (.scalar .x) t

/-- R140, R141, where UPDATE_BY_OMEGA has a lane to multiply by and Known operands: the value staged is the Montgomery
function, written out here: `t` is cut to 32 bits first, then `q` is subtracted once if `t >= q`. -/
def Obligations.TwiddleStepIsTheMontgomeryFunction : Prop :=
  ∀ (s : State) (k : Fin 8) (c a b q qd : Word), s.cur.scalar .omegaIdx = .known c → c.toNat = k.val →
    s.cur.scalar .twiddle = .known a → (s.cur.wide .omega)[k] = .known b → s.cur.scalar .q = .known q →
    s.cur.scalar .qdash = .known qd →
    ∃ t, exec .updateByOmega s = .next t ∧
      let p := a.toNat * b.toNat
      let r := (p + p % 2 ^ 32 * qd.toNat % 2 ^ 32 * q.toNat) / 2 ^ 32 % 2 ^ 32
      StagesOnly s (.scalar .twiddle)
        (.scalar (.known (BitVec.ofNat 32 (if q.toNat ≤ r then r - q.toNat else r)))) t

/-- 42_arithmetic.md section 3 (decision D8): the other cases of UPDATE_BY_OMEGA. A counter of 8 or more raises
RANGE_LANE_INDEX whatever the other operands are; an X counter or an X operand stages X. -/
def Obligations.UpdateByOmegaFaultsOrStagesX : Prop :=
  ∀ s : State, ∃ t, exec .updateByOmega s = .next t ∧
    match s.cur.scalar .omegaIdx with
    | .x => StagesOnly s (.scalar .twiddle) (.scalar .x) t
    | .known c =>
      (8 ≤ c.toNat → RaisesOnly s (.rangeLaneIndex (.scalar .omegaIdx) c.toNat) t) ∧
      (∀ k : Fin 8, c.toNat = k.val →
        (s.cur.scalar .twiddle = .x ∨ (s.cur.wide .omega)[k] = .x ∨ s.cur.scalar .q = .x ∨ s.cur.scalar .qdash = .x) →
        StagesOnly s (.scalar .twiddle) (.scalar .x) t)

/-- 42_arithmetic.md section 1 (R142 (a), which the spec derives): with a consistent modulus pair and operands below q,
one UPDATE_BY_OMEGA stages the reduced Montgomery product: a value below q that times 2^32 is the product modulo q. -/
def Obligations.TwiddleStepIsTheReducedProduct : Prop :=
  ∀ (s : State) (k : Fin 8) (c a b q qd : Word), s.cur.scalar .omegaIdx = .known c → c.toNat = k.val →
    s.cur.scalar .twiddle = .known a → (s.cur.wide .omega)[k] = .known b → s.cur.scalar .q = .known q →
    s.cur.scalar .qdash = .known qd → ModulusPair q.toNat qd.toNat → a.toNat < q.toNat → b.toNat < q.toNat →
    ∃ (t : State) (v : Word), exec .updateByOmega s = .next t ∧ StagesOnly s (.scalar .twiddle) (.scalar (.known v)) t ∧
      v.toNat < q.toNat ∧ v.toNat * 2 ^ 32 % q.toNat = a.toNat * b.toNat % q.toNat

/-- 42_arithmetic.md section 4 (decision D9), for whichever operand the block's OMEGA_SQ_OPERAND names: UPDATE on OMEGA
stages the Montgomery square of the operand in lane 0 and zeros in lanes 1 to 7, or 8 X lanes when an operand is X. -/
def Obligations.UpdateOmegaStagesTheSquare : Prop :=
  ∀ s : State, ∃ (l : Lanes) (t : State), exec .updateOmega s = .next t ∧ StagesOnly s (.wide .omega) (.wide l) t ∧
    match squareOperand Config.omegaSqOperand (s.cur.wide .omega), s.cur.scalar .q, s.cur.scalar .qdash with
    | .known v, .known q, .known qd =>
      let p := v.toNat * v.toNat
      let r := (p + p % 2 ^ 32 * qd.toNat % 2 ^ 32 * q.toNat) / 2 ^ 32 % 2 ^ 32
      l[0] = .known (BitVec.ofNat 32 (if q.toNat ≤ r then r - q.toNat else r)) ∧
        ∀ j : Fin 8, j ≠ 0 → l[j] = .known 0
    | _, _, _ => l = Vector.replicate 8 .x

/-- 42_arithmetic.md section 4 (decision D9): what the two values of OMEGA_SQ_OPERAND read. FULL reads all 8 lanes,
lane k in bits 32k+31 to 32k, and is X if any lane is; LANE0 reads lane 0 alone. -/
def Obligations.OmegaSquareOperandHasTwoReadings : Prop :=
  ∀ l : Lanes,
    (∀ n : WideWord, squareOperand .full l = .known n ↔ ∀ k : Fin 8, l[k] = .known (n.extractLsb' (32 * k) 32)) ∧
    (squareOperand .full l = .x ↔ ∃ k : Fin 8, l[k] = .x) ∧
    (∀ v : Word, l[0] = .known v → squareOperand .lane0 l = .known (BitVec.ofNat 256 v.toNat)) ∧
    (l[0] = .x → squareOperand .lane0 l = .x)

/-- 42_arithmetic.md section 4 (a corner case the spec derives): under FULL the square of a Known OMEGA depends on
lanes 0 and 1 alone, and where lane 1 is 0 both readings give the same value. -/
def Obligations.OmegaSquareReadsTheLow64Bits : Prop :=
  (∀ s₁ s₂ : State, (∀ k : Fin 8, (s₁.cur.wide .omega)[k] ≠ .x ∧ (s₂.cur.wide .omega)[k] ≠ .x) →
    (s₁.cur.wide .omega)[0] = (s₂.cur.wide .omega)[0] → (s₁.cur.wide .omega)[1] = (s₂.cur.wide .omega)[1] →
    s₁.cur.scalar .q = s₂.cur.scalar .q → s₁.cur.scalar .qdash = s₂.cur.scalar .qdash →
    (updateOmegaWith .full s₁).pend.wide .omega = (updateOmegaWith .full s₂).pend.wide .omega) ∧
  (∀ s : State, (∀ k : Fin 8, (s.cur.wide .omega)[k] ≠ .x) → (s.cur.wide .omega)[1] = .known 0 →
    updateOmegaWith .full s = updateOmegaWith .lane0 s)

/-- 42_arithmetic.md section 5 (decision D8): UPDATE on PSI stages the OMEGA lane PSI_IDX selects in all 8 lanes, X
when the counter or the lane is X, whatever PSI held or had pending; a counter of 8 or more raises
RANGE_LANE_INDEX. -/
def Obligations.UpdatePsiBroadcastsOneLane : Prop :=
  ∀ s : State, ∃ t, exec .updatePsi s = .next t ∧
    match s.cur.scalar .psiIdx with
    | .x => StagesOnly s (.wide .psi) (.wide (Vector.replicate 8 .x)) t
    | .known c =>
      (∀ k : Fin 8, c.toNat = k.val →
        StagesOnly s (.wide .psi) (.wide (Vector.replicate 8 (s.cur.wide .omega)[k])) t) ∧
      (8 ≤ c.toNat → RaisesOnly s (.rangeLaneIndex (.scalar .psiIdx) c.toNat) t)

/-! The register file -/

/-- R170: COMMIT makes the pending value of every register in P its current value, leaves every other current value,
clears every Dirty flag and every pending value, and touches neither the fault record nor the host's side. The premise
is R33. -/
def Obligations.CommitMakesPendingValuesCurrent : Prop :=
  ∀ s : State, s.PendingInvariant → decode 0x00000010 = .ok .commit ∧
    ∃ t, exec .commit s = .next t ∧ t.CycleClosed ∧ (∀ r, t.current r = (s.pending r).getD (s.current r)) ∧
      t.fault = s.fault ∧ t.host = s.host ∧ t.wdata = s.wdata ∧
      t.out = { rdata := 0, rdataX := false, faultOut := none, list := .none }

/-- R172: ABORT discards every pending value, clears every Dirty flag, and changes no current value, nor the fault
record, nor the host's side. The premise is R33. -/
def Obligations.AbortDiscardsPendingValues : Prop :=
  ∀ s : State, s.PendingInvariant → decode 0x00000011 = .ok .abort ∧
    ∃ t, exec .abort s = .next t ∧ t.CycleClosed ∧ (∀ r, t.current r = s.current r) ∧
      t.fault = s.fault ∧ t.host = s.host ∧ t.wdata = s.wdata ∧
      t.out = { rdata := 0, rdataX := false, faultOut := none, list := .none }

/-- R173: COMMIT and ABORT always leave the pending set empty, and on a state whose pending set is empty they change
nothing but the outputs. -/
def Obligations.ClosingTwiceIsClosingOnce : Prop :=
  ∀ (s : State) (close : Instr), s.PendingInvariant → (close = .commit ∨ close = .abort) →
    ∃ t, exec close s = .next t ∧ (∀ r, t.isDirty r = false) ∧
      ((∀ r, s.isDirty r = false) → AnswersOnly s { rdata := 0, rdataX := false, faultOut := none, list := .none } t)

/-- 43_register_file.md section 2 (the rendering of a partly X wide value is decision D23): CHANGES answers one entry
for each register in P, in strictly ascending index order, with its name, its width and its pending number, absent
when the value is X. That rdata and rdata_x are 0 beside the list is the model's choice (log 15). -/
def Obligations.ChangesListsThePendingSet : Prop :=
  ∀ s : State, s.PendingInvariant → ∃ (rs : List Reg) (t : State),
    exec .changes s = .next t ∧ rs.Pairwise (fun a b => a.index < b.index) ∧ (∀ r, r ∈ rs ↔ s.isDirty r = true) ∧
    AnswersOnly s { rdata := 0, rdataX := false, faultOut := none, list := .changes (rs.map fun r =>
      { name := traceName Config.tracePrefix r
        width := match r with
          | .scalar _ => 32
          | .wide _ => 256
        value := match (s.pending r).map RegValue.number with
          | some (.known n) => some n.toNat
          | _ => none }) } t

/-- 43_register_file.md section 2 (lower case and decimal are decision D23): a trace line is the name, `" = 0x"`, and
width/4 digits: the hexadecimal digits of the value, which read back as it, or all x. -/
def Obligations.TraceLineHasWidthOverFourDigits : Prop :=
  ∀ e : TraceEntry, traceLine e = e.name ++ " = 0x" ++ String.ofList (traceDigits e) ∧
    (traceDigits e).length = e.width / 4 ∧
    (e.value = none → ∀ c ∈ traceDigits e, c = 'x') ∧
    (∀ n, e.value = some n → n < 16 ^ (e.width / 4) → digitsValue 16 hexadecimalDigit (traceDigits e) 0 = some n)

/-- 43_register_file.md section 2 and 95_test_vectors.md L2.8 (decision D23): the lines of two staged registers and of
one X register, with the prefix pq. -/
def Obligations.TraceLinesOfTheSpec : Prop :=
  traceLine (traceEntry "pq" (.scalar .q) (some (.scalar (.known 0xD01)))) = "pq00 = 0x00000d01" ∧
  traceLine (traceEntry "pq" (.scalar .twiddle) (some (.scalar .x))) = "pq02 = 0xxxxxxxxx" ∧
  traceName "pq" (.scalar .mode) = "pq12"

/-- 43_register_file.md section 3 (decision D24): PEEK answers the 13 current values in index order, each as READ would
find it, and changes nothing. That rdata and rdata_x are 0 beside the list is the model's choice (log 15). -/
def Obligations.PeekAnswersEveryCurrentValue : Prop :=
  ∀ s : State, ∃ (vs : List (XVal 256)) (t : State), exec .peek s = .next t ∧
    AnswersOnly s { rdata := 0, rdataX := false, faultOut := none, list := .peek vs } t ∧ vs.length = 13 ∧
    ∀ r : Reg, ∃ u, exec (.read r) s = .next u ∧
      match vs[r.index]? with
      | some (.known n) => u.out = knownOutput n
      | some .x => u.out = unknownOutput
      | none => False

/-- R180: WIPE stages X in every register, 8 X lanes in a wide one, sets every Dirty flag, and changes no current
value, nor the fault record, nor the host's side. -/
def Obligations.WipeStagesXEverywhere : Prop :=
  ∀ s : State, decode 0x00000014 = .ok .wipe ∧
    ∃ t, exec .wipe s = .next t ∧ (∀ r, t.isDirty r = true) ∧
      (∀ c : Scalar, t.pending (.scalar c) = some (.scalar .x)) ∧
      (∀ w : Wide, t.pending (.wide w) = some (.wide (Vector.replicate 8 .x))) ∧
      (∀ r, t.current r = s.current r) ∧ t.fault = s.fault ∧ t.host = s.host ∧ t.wdata = s.wdata ∧
      t.out = { rdata := 0, rdataX := false, faultOut := none, list := .none }

/-- 43_register_file.md section 4 (R181, which the spec derives): after WIPE and COMMIT every register reads as X, and
every computing command, issued next, stages X and raises nothing. -/
def Obligations.WipedFileIsAllX : Prop :=
  ∀ s : State, ∃ t, runCommands [(.wipe, 0), (.commit, 0)] s = .next t ∧ t.CycleClosed ∧
    (∀ r, ∃ u, exec (.read r) t = .next u ∧ u.out = unknownOutput) ∧
    ∀ (i : Instr) (r : Reg),
      ((i = .increment r ∧ i.wellFormed = true) ∨ (i = .setFromCounterDa0 ∧ r = .scalar .da0) ∨
        (i = .setFromCounterDa1 ∧ r = .scalar .da1) ∨
        ((i = .loadFromPsi ∨ i = .negateModQ ∨ i = .updateByOmega) ∧ r = .scalar .twiddle) ∨
        (i = .updateOmega ∧ r = .wide .omega) ∨ (i = .updatePsi ∧ r = .wide .psi) ∨
        (i = .updateM ∧ r = .scalar .m) ∨ (i = .updateJ2 ∧ r = .scalar .j2)) →
      ∃ u, exec i t = .next u ∧
        StagesOnly t r (match r with
          | .scalar _ => .scalar .x
          | .wide _ => .wide (Vector.replicate 8 .x)) u
end

