-- ==== Sys2Proof/Laws/State.lean ====
section
/-! SUPPORT. The small lemmas of the register bank and of State: one per field per update. -/

namespace Sys2Proof.Machine

variable {S W : Type}

@[simp] theorem File.scalar_setScalar_same (f : File S W) (r : Scalar) (v : S) : (f.setScalar r v).scalar r = v := by
  cases r <;> rfl

@[simp] theorem File.scalar_setScalar_ne (f : File S W) {r r' : Scalar} (v : S) (h : r' ≠ r) :
    (f.setScalar r v).scalar r' = f.scalar r' := by
  cases r <;> cases r' <;> first | rfl | exact absurd rfl h

@[simp] theorem File.wide_setScalar (f : File S W) (r : Scalar) (w : Wide) (v : S) :
    (f.setScalar r v).wide w = f.wide w := by
  cases r <;> cases w <;> rfl

@[simp] theorem File.wide_setWide_same (f : File S W) (w : Wide) (v : W) : (f.setWide w v).wide w = v := by
  cases w <;> rfl

@[simp] theorem File.wide_setWide_ne (f : File S W) {w w' : Wide} (v : W) (h : w' ≠ w) :
    (f.setWide w v).wide w' = f.wide w' := by
  cases w <;> cases w' <;> first | rfl | exact absurd rfl h

@[simp] theorem File.scalar_setWide (f : File S W) (r : Scalar) (w : Wide) (v : W) :
    (f.setWide w v).scalar r = f.scalar r := by
  cases w <;> cases r <;> rfl

@[simp] theorem File.scalar_tabulate (f : Scalar → S) (g : Wide → W) (r : Scalar) :
    (File.tabulate f g).scalar r = f r := by
  cases r <;> rfl

@[simp] theorem File.wide_tabulate (f : Scalar → S) (g : Wide → W) (w : Wide) :
    (File.tabulate f g).wide w = g w := by
  cases w <;> rfl

/-- Two banks that hold the same datum at every register are equal. -/
theorem File.ext_of_registers {f g : File S W} (hs : ∀ r, f.scalar r = g.scalar r) (hw : ∀ w, f.wide w = g.wide w) :
    f = g := by
  obtain ⟨q, qd, tw, om, ps, oi, pi, j, d0, d1, m, j2, mo⟩ := f
  obtain ⟨q', qd', tw', om', ps', oi', pi', j', d0', d1', m', j2', mo'⟩ := g
  congr
  · exact hs .q
  · exact hs .qdash
  · exact hs .twiddle
  · exact hw .omega
  · exact hw .psi
  · exact hs .omegaIdx
  · exact hs .psiIdx
  · exact hs .j
  · exact hs .da0
  · exact hs .da1
  · exact hs .m
  · exact hs .j2
  · exact hs .mode

section
variable (s : State) (r : Scalar) (w : Wide)

@[simp] theorem State.current_scalar : s.current (.scalar r) = .scalar (s.cur.scalar r) := rfl
@[simp] theorem State.current_wide : s.current (.wide w) = .wide (s.cur.wide w) := rfl
@[simp] theorem State.pending_scalar : s.pending (.scalar r) = (s.pend.scalar r).map .scalar := rfl
@[simp] theorem State.pending_wide : s.pending (.wide w) = (s.pend.wide w).map .wide := rfl
@[simp] theorem State.isDirty_scalar : s.isDirty (.scalar r) = s.dirty.scalar r := rfl
@[simp] theorem State.isDirty_wide : s.isDirty (.wide w) = s.dirty.wide w := rfl

@[simp] theorem finish_cur : (finish s).cur = s.cur := rfl
@[simp] theorem finish_pend : (finish s).pend = s.pend := rfl
@[simp] theorem finish_dirty : (finish s).dirty = s.dirty := rfl
@[simp] theorem finish_fault : (finish s).fault = s.fault := rfl
@[simp] theorem finish_host : (finish s).host = s.host := rfl
@[simp] theorem finish_wdata : (finish s).wdata = s.wdata := rfl
@[simp] theorem finish_out : (finish s).out = Output.idle := rfl

variable (f : BlockFault)

@[simp] theorem raise_cur : (raise f s).cur = s.cur := rfl
@[simp] theorem raise_pend : (raise f s).pend = s.pend := rfl
@[simp] theorem raise_dirty : (raise f s).dirty = s.dirty := rfl
@[simp] theorem raise_host : (raise f s).host = s.host := rfl
@[simp] theorem raise_wdata : (raise f s).wdata = s.wdata := rfl
@[simp] theorem raise_out : (raise f s).out = { Output.idle with faultOut := some f.code } := rfl
@[simp] theorem raise_fault : (raise f s).fault = some (s.fault.getD f) := by
  cases h : s.fault <;> simp [raise, h]

variable (v : Val) (l : Lanes)

@[simp] theorem stageScalar_cur : (stageScalar r v s).cur = s.cur := rfl
@[simp] theorem stageScalar_pend : (stageScalar r v s).pend = s.pend.setScalar r (some v) := rfl
@[simp] theorem stageScalar_dirty : (stageScalar r v s).dirty = s.dirty.setScalar r true := rfl
@[simp] theorem stageScalar_fault : (stageScalar r v s).fault = s.fault := rfl
@[simp] theorem stageScalar_host : (stageScalar r v s).host = s.host := rfl
@[simp] theorem stageScalar_wdata : (stageScalar r v s).wdata = s.wdata := rfl

@[simp] theorem stageWide_cur : (stageWide w l s).cur = s.cur := rfl
@[simp] theorem stageWide_pend : (stageWide w l s).pend = s.pend.setWide w (some l) := rfl
@[simp] theorem stageWide_dirty : (stageWide w l s).dirty = s.dirty.setWide w true := rfl
@[simp] theorem stageWide_fault : (stageWide w l s).fault = s.fault := rfl
@[simp] theorem stageWide_host : (stageWide w l s).host = s.host := rfl
@[simp] theorem stageWide_wdata : (stageWide w l s).wdata = s.wdata := rfl

variable (n : XVal 256) (o : OutList)

@[simp] theorem answer_cur : (answer n s).cur = s.cur := rfl
@[simp] theorem answer_pend : (answer n s).pend = s.pend := rfl
@[simp] theorem answer_dirty : (answer n s).dirty = s.dirty := rfl
@[simp] theorem answer_fault : (answer n s).fault = s.fault := rfl
@[simp] theorem answer_host : (answer n s).host = s.host := rfl
@[simp] theorem answer_wdata : (answer n s).wdata = s.wdata := rfl
@[simp] theorem answer_out : (answer n s).out = readOutput n := rfl

@[simp] theorem answerList_cur : (answerList o s).cur = s.cur := rfl
@[simp] theorem answerList_pend : (answerList o s).pend = s.pend := rfl
@[simp] theorem answerList_dirty : (answerList o s).dirty = s.dirty := rfl
@[simp] theorem answerList_fault : (answerList o s).fault = s.fault := rfl
@[simp] theorem answerList_host : (answerList o s).host = s.host := rfl
@[simp] theorem answerList_wdata : (answerList o s).wdata = s.wdata := rfl
@[simp] theorem answerList_out : (answerList o s).out = { Output.idle with list := o } := rfl

@[simp] theorem discardPending_cur : (discardPending s).cur = s.cur := rfl
@[simp] theorem discardPending_fault : (discardPending s).fault = s.fault := rfl
@[simp] theorem discardPending_host : (discardPending s).host = s.host := rfl
@[simp] theorem discardPending_wdata : (discardPending s).wdata = s.wdata := rfl
@[simp] theorem commitPending_fault : (commitPending s).fault = s.fault := rfl
@[simp] theorem commitPending_host : (commitPending s).host = s.host := rfl
@[simp] theorem commitPending_wdata : (commitPending s).wdata = s.wdata := rfl
@[simp] theorem poisonAll_cur : (poisonAll s).cur = s.cur := rfl
@[simp] theorem poisonAll_fault : (poisonAll s).fault = s.fault := rfl
@[simp] theorem poisonAll_host : (poisonAll s).host = s.host := rfl
@[simp] theorem poisonAll_wdata : (poisonAll s).wdata = s.wdata := rfl

end

@[simp] theorem readOutput_known (v : WideWord) : readOutput (.known v) = knownOutput v := rfl
@[simp] theorem readOutput_x : readOutput .x = unknownOutput := rfl
@[simp] theorem zext256_known (v : Word) : zext256 (.known v) = .known (v.setWidth 256) := rfl
@[simp] theorem zext256_x : zext256 .x = .x := rfl

end Sys2Proof.Machine
end

