-- ==== Sys2Proof/Laws/Ops.lean ====
section
/-! SUPPORT. One lemma for each shared operation that says once everything it does, and the inversion of `exec`: what
one command can do at all. -/

namespace Sys2Proof.Machine

/-- Staging a scalar register changes that register's pending value and flag alone (R34). -/
theorem stageScalar_stagesOnly (r : Scalar) (v : Val) (s : State) :
    StagesOnly s (.scalar r) (.scalar v) (finish (stageScalar r v s)) := by
  refine ⟨by simp, by simp, ?_, fun r' => by cases r' <;> rfl, rfl, rfl, rfl, rfl⟩
  rintro (r' | w') h
  · have h' : r' ≠ r := fun e => h (by rw [e])
    simp [h']
  · simp

/-- Staging a wide register changes that register's pending value and flag alone (R34). -/
theorem stageWide_stagesOnly (w : Wide) (l : Lanes) (s : State) :
    StagesOnly s (.wide w) (.wide l) (finish (stageWide w l s)) := by
  refine ⟨by simp, by simp, ?_, fun r' => by cases r' <;> rfl, rfl, rfl, rfl, rfl⟩
  rintro (r' | w') h
  · simp
  · have h' : w' ≠ w := fun e => h (by rw [e])
    simp [h']

/-- Taking a fault changes the record and the outputs alone (R202, R203). -/
theorem raise_raisesOnly (f : BlockFault) (s : State) : RaisesOnly s f (raise f s) :=
  ⟨fun r => by cases r <;> exact ⟨rfl, rfl, rfl⟩, raise_fault s f, rfl, rfl, rfl⟩

/-- Answering a read changes the outputs alone (R58). -/
theorem answer_answersOnly (n : XVal 256) (s : State) : AnswersOnly s (readOutput n) (answer n s) :=
  ⟨fun r => by cases r <;> exact ⟨rfl, rfl, rfl⟩, rfl, rfl, rfl, rfl⟩

/-- Answering with a list changes the outputs alone (R58); the bus value beside the list is log 15. -/
theorem answerList_answersOnly (o : OutList) (s : State) :
    AnswersOnly s { Output.idle with list := o } (answerList o s) :=
  ⟨fun r => by cases r <;> exact ⟨rfl, rfl, rfl⟩, rfl, rfl, rfl, rfl⟩

/-- The base of a lane merge is the register's own pending value, else its current value (R108). -/
theorem mergeBase_eq (w : Wide) (s : State) : mergeBase w s = (s.pend.wide w).getD (s.cur.wide w) := by
  cases h : s.pend.wide w <;> simp [mergeBase, h]

/-- Staging a wide register twice is staging it the second time (R241). -/
@[simp] theorem stageWide_stageWide (w : Wide) (l l' : Lanes) (s : State) :
    stageWide w l' (stageWide w l s) = stageWide w l' s := by
  cases w <;> rfl

/-- A merge after a staging of the same register merges into the staged value (R62). -/
@[simp] theorem mergeLane_stageWide (w : Wide) (k : Fin 8) (v : Val) (l : Lanes) (s : State) :
    mergeLane w k v (stageWide w l s) = stageWide w (l.set k v) s := by
  simp [mergeLane, mergeBase]

/-- Eight merges of one value leave that value in every lane, whatever the base was (R160). -/
theorem broadcast_eq (w : Wide) (v : Val) (s : State) : broadcast w v s = stageWide w (Vector.replicate 8 v) s := by
  have h (l : Lanes) : (((((((l.set 0 v).set 1 v).set 2 v).set 3 v).set 4 v).set 5 v).set 6 v).set 7 v =
      Vector.replicate 8 v := by
    ext i hi
    have : i = 0 ∨ i = 1 ∨ i = 2 ∨ i = 3 ∨ i = 4 ∨ i = 5 ∨ i = 6 ∨ i = 7 := by omega
    rcases this with rfl | rfl | rfl | rfl | rfl | rfl | rfl | rfl <;> simp
  have h0 : mergeLane w 0 v s = stageWide w ((mergeBase w s).set 0 v) s := rfl
  simp only [broadcast, allLanes, List.foldl_cons, List.foldl_nil, h0, mergeLane_stageWide]
  exact congrArg (fun l => stageWide w l s) (h _)

/-- What `selectLane` answers (R146). -/
theorem selectLane_known_lt {c : Word} (h : c.toNat < 8) : selectLane (.known c) = .lane ⟨c.toNat, h⟩ := by
  simp [selectLane, h]

theorem selectLane_known_ge {c : Word} (h : 8 ≤ c.toNat) : selectLane (.known c) = .outOfRange c := by
  simp [selectLane, Nat.not_lt.mpr h]

/-- `sel` either raises RANGE_LANE_INDEX for the counter or lets the command go on (R146). -/
theorem withSelectedLane_cases (c : Scalar) (s : State) (k : Option (Fin 8) → State) :
    (s.cur.scalar c = .x ∧ withSelectedLane c s k = k none) ∨
    (∃ (n : Word) (h : n.toNat < 8), s.cur.scalar c = .known n ∧ withSelectedLane c s k = k (some ⟨n.toNat, h⟩)) ∨
    (∃ n : Word, 8 ≤ n.toNat ∧ s.cur.scalar c = .known n ∧
      withSelectedLane c s k = raise (.rangeLaneIndex (.scalar c) n.toNat) s) := by
  cases hc : s.cur.scalar c with
  | x => exact .inl ⟨rfl, by simp [withSelectedLane, hc, selectLane]⟩
  | known n =>
    by_cases h : n.toNat < 8
    · exact .inr (.inl ⟨n, h, rfl, by simp [withSelectedLane, hc, selectLane_known_lt h]⟩)
    · exact .inr (.inr ⟨n, Nat.not_lt.mp h, rfl, by
        simp [withSelectedLane, hc, selectLane_known_ge (Nat.not_lt.mp h)]⟩)

/-- Every register is in the list of the 13. -/
theorem mem_allRegs (r : Reg) : r ∈ allRegs := by
  rcases r with (_ | _ | _ | _ | _ | _ | _ | _ | _ | _ | _) | (_ | _) <;> simp [allRegs]

/-- No member of P lacks a pending value exactly when every Dirty register has one (R33). -/
theorem pendingMissing_eq_false (s : State) :
    s.pendingMissing = false ↔ ∀ r, s.isDirty r = true → s.pending r ≠ none := by
  simp only [State.pendingMissing, List.any_eq_false, Bool.and_eq_true, not_and, Option.isNone_iff_eq_none]
  exact ⟨fun h r => h r (mem_allRegs r), fun h r _ => h r⟩

/-- Under R33 no member of P lacks a pending value. -/
theorem State.PendingInvariant.not_missing {s : State} (h : s.PendingInvariant) : s.pendingMissing = false :=
  (pendingMissing_eq_false s).mpr fun r hr => (h r).mp hr

/-- ABORT's operation, register by register (R172). -/
theorem discardPending_spec (s : State) (r : Reg) :
    (discardPending s).isDirty r = false ∧
    (discardPending s).pending r = if s.isDirty r then none else s.pending r := by
  rcases r with r | w
  · cases h : s.dirty.scalar r <;> simp [discardPending, ifDirty, h]
  · cases h : s.dirty.wide w <;> simp [discardPending, ifDirty, h]

/-- COMMIT's operation, register by register (R170). -/
theorem commitPending_spec (s : State) (r : Reg) :
    (commitPending s).isDirty r = false ∧
    (commitPending s).pending r = (if s.isDirty r then none else s.pending r) ∧
    (commitPending s).current r = if s.isDirty r then (s.pending r).getD (s.current r) else s.current r := by
  refine ⟨(discardPending_spec _ r).1, (discardPending_spec _ r).2, ?_⟩
  rcases r with r | w
  · cases h : s.dirty.scalar r <;> cases h' : s.pend.scalar r <;> simp [commitPending, ifDirty, h, h']
  · cases h : s.dirty.wide w <;> cases h' : s.pend.wide w <;> simp [commitPending, ifDirty, h, h']

/-- WIPE's operation, register by register (R180). -/
theorem poisonAll_spec (s : State) (r : Reg) :
    (poisonAll s).isDirty r = true ∧ (poisonAll s).pending r ≠ none := by
  cases r <;> simp [poisonAll]

/-- Everything one command can do: stage one register, answer, raise, or act on the whole file by COMMIT, ABORT or
WIPE. -/
inductive Effect (i : Instr) (s : State) : State → Prop where
  | stage {t : State} (r : Reg) (v : RegValue) (named : i.reg? = some r) (h : StagesOnly s r v t) : Effect i s t
  | answer {t : State} (o : Output) (noFault : o.faultOut = none) (h : AnswersOnly s o t) : Effect i s t
  | raise {t : State} (f : BlockFault)
      (cause : f = .pendingInconsistent → i = .commit ∧ s.pendingMissing = true) (h : RaisesOnly s f t) : Effect i s t
  | commit (isCommit : i = .commit) (whole : s.pendingMissing = false) : Effect i s (finish (commitPending s))
  | abort (isAbort : i = .abort) : Effect i s (finish (discardPending s))
  | wipe (isWipe : i = .wipe) : Effect i s (finish (poisonAll s))

theorem Effect.scalar {i : Instr} {s : State} (r : Scalar) (v : Val) (h : i.reg? = some (.scalar r)) :
    Effect i s (finish (stageScalar r v s)) :=
  .stage _ _ h (stageScalar_stagesOnly r v s)

theorem Effect.wide {i : Instr} {s : State} (w : Wide) (l : Lanes) (h : i.reg? = some (.wide w)) :
    Effect i s (finish (stageWide w l s)) :=
  .stage _ _ h (stageWide_stagesOnly w l s)

theorem Effect.fault {i : Instr} {s : State} {f : BlockFault} (h : f ≠ .pendingInconsistent) :
    Effect i s (Sys2Proof.Machine.raise f s) :=
  .raise f (fun e => absurd e h) (raise_raisesOnly f s)

theorem Effect.read {i : Instr} {s : State} (n : XVal 256) : Effect i s (Sys2Proof.Machine.answer n s) :=
  .answer _ (by cases n <;> rfl) (answer_answersOnly n s)

/-- A command over a counter-selected lane has one of its two continuations' effects, or raises (R146). -/
theorem Effect.selected {i : Instr} {s : State} (c : Scalar) (k : Option (Fin 8) → State)
    (h : ∀ l, Effect i s (k l)) : Effect i s (withSelectedLane c s k) := by
  rcases withSelectedLane_cases c s k with ⟨-, e⟩ | ⟨n, hn, -, e⟩ | ⟨n, -, -, e⟩ <;> rw [e]
  · exact h _
  · exact h _
  · exact .fault nofun

theorem incrementCounter_effect {i : Instr} (r : Scalar) (s : State) (h : i.reg? = some (.scalar r)) :
    Effect i s (incrementCounter r s) := by
  unfold incrementCounter
  split
  · exact .scalar _ _ h
  · split
    · exact .fault nofun
    · exact .scalar _ _ h

/-- THE INVERSION OF `exec`: every command on every state answers a next state, which is one of the six effects. -/
theorem exec_effect (i : Instr) (s : State) : ∃ t, exec i s = .next t ∧ Effect i s t := by
  cases i with
  | read r => exact ⟨_, rfl, .read _⟩
  | readPending r => exact ⟨_, rfl, .read _⟩
  | write r =>
    simp only [exec, execWrite]
    split
    · exact ⟨_, rfl, .fault nofun⟩
    · cases r with
      | scalar r => exact ⟨_, rfl, .scalar _ _ rfl⟩
      | wide w => exact ⟨_, rfl, .wide _ _ rfl⟩
  | readLane r k =>
    cases r with
    | scalar r => exact ⟨_, rfl, .fault nofun⟩
    | wide w =>
      simp only [exec, execReadLane]
      split
      · exact ⟨_, rfl, .fault nofun⟩
      · exact ⟨_, rfl, .read _⟩
  | writeLane r k =>
    cases r with
    | scalar r => exact ⟨_, rfl, .fault nofun⟩
    | wide w =>
      simp only [exec, execWriteLane]
      split
      · exact ⟨_, rfl, .fault nofun⟩
      · split
        · exact ⟨_, rfl, .fault nofun⟩
        · exact ⟨_, rfl, .wide _ _ rfl⟩
  | increment r =>
    rcases r with (_ | _ | _ | _ | _ | _ | _ | _ | _ | _ | _) | w
    all_goals first
      | exact ⟨_, rfl, incrementCounter_effect _ s rfl⟩
      | exact ⟨_, rfl, .fault nofun⟩
  | setFromCounterDa0 => exact ⟨_, rfl, .scalar _ _ rfl⟩
  | setFromCounterDa1 => exact ⟨_, rfl, .scalar _ _ rfl⟩
  | loadFromPsi => exact ⟨_, rfl, .selected _ _ fun _ => .scalar _ _ rfl⟩
  | negateModQ =>
    simp only [exec, execNegateModQ]
    split
    · split
      · exact ⟨_, rfl, .scalar _ _ rfl⟩
      · exact ⟨_, rfl, .fault nofun⟩
    · exact ⟨_, rfl, .scalar _ _ rfl⟩
  | updateByOmega => exact ⟨_, rfl, .selected _ _ fun _ => .scalar _ _ rfl⟩
  | updateOmega => exact ⟨_, rfl, .wide _ _ rfl⟩
  | updatePsi => exact ⟨_, rfl, .selected _ _ fun _ => by rw [broadcast_eq]; exact .wide _ _ rfl⟩
  | updateM => exact ⟨_, rfl, .scalar _ _ rfl⟩
  | updateJ2 => exact ⟨_, rfl, .scalar _ _ rfl⟩
  | commit =>
    simp only [exec, execCommit]
    split
    · exact ⟨_, rfl, .raise _ (fun _ => ⟨rfl, ‹_›⟩) (raise_raisesOnly _ s)⟩
    · exact ⟨_, rfl, .commit rfl (Bool.eq_false_iff.mpr ‹_›)⟩
  | abort => exact ⟨_, rfl, .abort rfl⟩
  | changes => exact ⟨_, rfl, .answer _ rfl (answerList_answersOnly _ s)⟩
  | peek => exact ⟨_, rfl, .answer _ rfl (answerList_answersOnly _ s)⟩
  | wipe => exact ⟨_, rfl, .wipe rfl⟩

end Sys2Proof.Machine
end

