-- ==== Sys2Proof/Laws/PerInstr.lean ====
section
/-! SUPPORT. The per-instruction family `EncodedFields`: the four fields of every command's word (30_encoding.md R71). -/

namespace Sys2Proof.Laws.EncodedFields

/-- The word of a command has its operation's code, its register's index and its lane in their fields, and zeros in the
reserved bits (R71, R76). -/
def Statement (i : Instr) : Prop :=
  opField (encode i) = i.op.code ∧ regField (encode i) = i.regBits ∧ laneField (encode i) = i.laneBits ∧
    resField (encode i) = 0

/-- The fields of a composed word are what it was composed of (R71, R76). -/
theorem fields_of_commandWord (op : Op) (reg : BitVec 5) (lane : BitVec 4) :
    opField (commandWord op reg lane) = op.code ∧ regField (commandWord op reg lane) = reg ∧
      laneField (commandWord op reg lane) = lane ∧ resField (commandWord op reg lane) = 0 := by
  generalize hc : op.code = c
  refine ⟨?_, ?_, ?_, ?_⟩ <;>
    (simp only [opField, regField, laneField, resField, commandWord, hc]; ext j hj; interval_cases j <;> simp)

/-- The family's statement holds of any command: its word is composed of its operation, register and lane. -/
theorem of_encode (i : Instr) : Statement i := fields_of_commandWord i.op i.regBits i.laneBits

theorem read (reg : Reg) : Statement (.read reg) := of_encode _
theorem readPending (reg : Reg) : Statement (.readPending reg) := of_encode _
theorem write (reg : Reg) : Statement (.write reg) := of_encode _
theorem readLane (reg : Reg) (lane : BitVec 4) : Statement (.readLane reg lane) := of_encode _
theorem writeLane (reg : Reg) (lane : BitVec 4) : Statement (.writeLane reg lane) := of_encode _
theorem increment (reg : Reg) : Statement (.increment reg) := of_encode _
theorem setFromCounterDa0 : Statement .setFromCounterDa0 := of_encode _
theorem setFromCounterDa1 : Statement .setFromCounterDa1 := of_encode _
theorem loadFromPsi : Statement .loadFromPsi := of_encode _
theorem negateModQ : Statement .negateModQ := of_encode _
theorem updateByOmega : Statement .updateByOmega := of_encode _
theorem updateOmega : Statement .updateOmega := of_encode _
theorem updatePsi : Statement .updatePsi := of_encode _
theorem updateM : Statement .updateM := of_encode _
theorem updateJ2 : Statement .updateJ2 := of_encode _
theorem commit : Statement .commit := of_encode _
theorem abort : Statement .abort := of_encode _
theorem changes : Statement .changes := of_encode _
theorem peek : Statement .peek := of_encode _
theorem wipe : Statement .wipe := of_encode _

end Sys2Proof.Laws.EncodedFields
end

