-- ==== Sys2Proof/Tests/Slice0.lean ====
section
/-! SUPPORT. Tests of the model against spec/95_test_vectors.md (named in the comments), the smoke tests of
`Instr.wellFormed`, and for each statement with hypotheses a state and operands that meet them. -/

namespace Sys2Proof.Tests

open Sys2Proof.Machine

/-! WellFormed: an ill-formed term for each line of the kind table (R35) -/

theorem test_wellFormed_refuses_read_lane_of_scalar : (Instr.readLane (.scalar .q) 0).wellFormed = false := by decide
theorem test_wellFormed_refuses_write_lane_of_scalar : (Instr.writeLane (.scalar .mode) 7).wellFormed = false := by
  decide
theorem test_wellFormed_refuses_increment_of_stride : (Instr.increment (.scalar .m)).wellFormed = false := by decide
theorem test_wellFormed_refuses_increment_of_wide : (Instr.increment (.wide .psi)).wellFormed = false := by decide
theorem test_wellFormed_refuses_increment_of_plain : (Instr.increment (.scalar .q)).wellFormed = false := by decide
theorem test_wellFormed_refuses_increment_of_twiddle : (Instr.increment (.scalar .twiddle)).wellFormed = false := by
  decide

/-! Decoding: words of R76 and L2.1, one for each constructor -/

theorem test_decode_read : decode 0x00000041 = .ok (.read (.scalar .twiddle)) := by decide
theorem test_decode_read_pending : decode 0x00000062 = .ok (.readPending (.wide .omega)) := by decide
theorem test_decode_write : decode 0x00000183 = .ok (.write (.scalar .mode)) := by decide
theorem test_decode_read_lane : decode 0x00000C64 = .ok (.readLane (.wide .omega) 3) := by decide
theorem test_decode_read_lane_8 : decode 0x00002064 = .ok (.readLane (.wide .omega) 8) := by decide
theorem test_decode_write_lane : decode 0x00001C85 = .ok (.writeLane (.wide .psi) 7) := by decide
theorem test_decode_write_lane_15 : decode 0x00003C85 = .ok (.writeLane (.wide .psi) 15) := by decide
theorem test_decode_increment : decode 0x000000E6 = .ok (.increment (.scalar .j)) := by decide
theorem test_decode_set_from_counter_da0 : decode 0x00000107 = .ok .setFromCounterDa0 := by decide
theorem test_decode_set_from_counter_da1 : decode 0x00000127 = .ok .setFromCounterDa1 := by decide
theorem test_decode_load_from_psi : decode 0x00000048 = .ok .loadFromPsi := by decide
theorem test_decode_negate_mod_q : decode 0x00000049 = .ok .negateModQ := by decide
theorem test_decode_update_by_omega : decode 0x0000004A = .ok .updateByOmega := by decide
theorem test_decode_update_omega : decode 0x0000006B = .ok .updateOmega := by decide
theorem test_decode_update_psi : decode 0x0000008B = .ok .updatePsi := by decide
theorem test_decode_update_m : decode 0x0000014B = .ok .updateM := by decide
theorem test_decode_update_j2 : decode 0x0000016B = .ok .updateJ2 := by decide
theorem test_decode_commit : decode 0x00000010 = .ok .commit := by decide
theorem test_decode_abort : decode 0x00000011 = .ok .abort := by decide
theorem test_decode_changes : decode 0x00000012 = .ok .changes := by decide
theorem test_decode_peek : decode 0x00000013 = .ok .peek := by decide
theorem test_decode_wipe : decode 0x00000014 = .ok .wipe := by decide

/-- The illegal words of L2.1, each by the check of R74 that refuses it first. -/
theorem test_decode_illegal_words :
    decode 0x00000000 = .error .reservedOp ∧ decode 0x0000000C = .error .reservedOp ∧
    decode 0x00000015 = .error .reservedOp ∧ decode 0x0000001F = .error .reservedOp ∧
    decode 0x00004000 = .error .reservedBits ∧ decode 0x00004001 = .error .reservedBits ∧
    decode 0x000001A3 = .error .noSuchRegister ∧ decode 0x000001E6 = .error .noSuchRegister ∧
    decode 0x00000146 = .error .registerNotAllowed ∧ decode 0x00000406 = .error .registerNotAllowed ∧
    decode 0x00000030 = .error .strayField ∧ decode 0x00000410 = .error .strayField ∧
    decode 0x0000004B = .error .registerNotAllowed ∧ decode 0x00000028 = .error .registerNotAllowed ∧
    decode 0x00000187 = .error .registerNotAllowed ∧ decode 0x00000467 = .error .registerNotAllowed ∧
    decode 0x00000421 = .error .strayLane := by decide

/-! What a test looks at -/

/-- The state after a command, `State.reset` where there is none. -/
def after (a : Answer) : State :=
  match a with
  | .next t => t
  | _ => State.reset

/-- The pending value of a register after a command. -/
def stagedIn (a : Answer) (r : Reg) : Option RegValue := (after a).pending r

/-- The reset state with other current values. -/
def start (cur : File Val Lanes) : State := { State.reset with cur := cur }

/-- The reset values of the registers, to be updated. -/
def zero : File Val Lanes := State.reset.cur

/-- Lanes given by number, lane 0 first. -/
def lanes (a b c d e f g h : Word) : Lanes :=
  #v[.known a, .known b, .known c, .known d, .known e, .known f, .known g, .known h]

/-- The start state of L2.6 and L2.9: the modulus pair of section 8 of the source, a twiddle and OMEGA's lane 0. -/
def engine (twiddle omega : Word) : State :=
  start { zero with q := .known 0xD01, qdash := .known 0x94570cff, twiddle := .known twiddle,
                    omega := lanes omega 0 0 0 0 0 0 0 }

/-! Register access (L2.2) -/

/-- L2.2, row 2: `write Q, 0xD01`, after which `read Q` gives 0 and `read_pending Q` gives 0xD01. -/
theorem test_read_ignores_pending :
    (after (exec (.read (.scalar .q)) (after (exec (.write (.scalar .q)) { State.reset with wdata := 0xD01 })))).out =
      knownOutput 0 := by decide
theorem test_read_pending_sees_pending :
    (after (exec (.readPending (.scalar .q))
      (after (exec (.write (.scalar .q)) { State.reset with wdata := 0xD01 })))).out = knownOutput 0xD01 := by decide
/-- L2.2: a wide value lies with lane 0 at the low end; P4 step 1. -/
theorem test_read_puts_lane_0_low :
    (after (exec (.read (.wide .omega)) (start { zero with omega := lanes 0x3333 0x2222 0x1111 0 0 0 0 0 }))).out =
      knownOutput 0x000011110000222200003333 := by decide
theorem test_read_pending_falls_back :
    (after (exec (.readPending (.scalar .j)) (start { zero with j := .known 7 }))).out = knownOutput 7 := by decide
/-- L2.2: the largest value of each width fits, the next one does not. -/
theorem test_write_range_scalar :
    stagedIn (exec (.write (.scalar .q)) { State.reset with wdata := 2 ^ 32 - 1 }) (.scalar .q) =
      some (.scalar (.known 0xFFFFFFFF)) ∧
    (after (exec (.write (.scalar .q)) { State.reset with wdata := 2 ^ 32 })).fault =
      some (.rangeValue (.scalar .q) (2 ^ 32)) := by decide
theorem test_write_range_wide :
    stagedIn (exec (.write (.wide .omega)) { State.reset with wdata := 2 ^ 256 - 1 }) (.wide .omega) =
      some (.wide (Vector.replicate 8 (.known 0xFFFFFFFF))) ∧
    (after (exec (.write (.wide .omega)) { State.reset with wdata := 2 ^ 256 })).fault =
      some (.rangeValue (.wide .omega) (2 ^ 256)) := by decide
theorem test_read_lane :
    (after (exec (.readLane (.wide .omega) 1) (start { zero with omega := lanes 0x5678 0x1234 0 0 0 0 0 0 }))).out =
      knownOutput 0x1234 := by decide
/-- L2.10: a fault leaves a pending value and P as they are. -/
theorem test_read_lane_8_faults :
    let s := after (exec (.write (.scalar .q)) { State.reset with wdata := 7 })
    (after (exec (.readLane (.wide .omega) 8) s)).fault = some (.rangeLaneIndex (.wide .omega) 8) ∧
    stagedIn (exec (.readLane (.wide .omega) 8) s) (.scalar .q) = some (.scalar (.known 7)) := by decide
/-- L2.2: the lane merges into the pending WRITE, not into the current value. -/
theorem test_write_lane_merges_into_pending :
    stagedIn (exec (.writeLane (.wide .omega) 7)
      { start { zero with omega := lanes 1 2 3 4 5 6 7 8 } with
        pend := { State.reset.pend with omega := some (lanes 0 0 0 0 0 0 0 0) }, wdata := 9 }) (.wide .omega) =
      some (.wide (lanes 0 0 0 0 0 0 0 9)) := by decide
/-- L2.1, last table: the lane index is checked before the value. -/
theorem test_write_lane_checks_lane_first :
    (after (exec (.writeLane (.wide .psi) 9) { State.reset with wdata := 2 ^ 32 })).fault =
      some (.rangeLaneIndex (.wide .psi) 9) ∧
    (after (exec (.writeLane (.wide .psi) 7) { State.reset with wdata := 2 ^ 32 })).fault =
      some (.rangeValue (.wide .psi) (2 ^ 32)) := by decide

/-! Counters, derived addresses and strides (L2.3 to L2.5) -/

theorem test_increment_below_saturation :
    stagedIn (exec (.increment (.scalar .j)) (start { zero with j := .known 0xFFFFFFFE })) (.scalar .j) =
      some (.scalar (.known 0xFFFFFFFF)) := by decide
theorem test_increment_saturated_or_x :
    (after (exec (.increment (.scalar .j)) (start { zero with j := .known 0xFFFFFFFF }))).fault =
      some (.overflow (.scalar .j) 0xFFFFFFFF) ∧
    stagedIn (exec (.increment (.scalar .j)) (start { zero with j := .x })) (.scalar .j) = some (.scalar .x) := by
  decide
theorem test_set_from_counter_da0 :
    stagedIn (exec .setFromCounterDa0 (start { zero with j := .known 0x333 })) (.scalar .da0) =
      some (.scalar (.known 0xCC)) := by decide
theorem test_set_from_counter_da0_ignores_m :
    stagedIn (exec .setFromCounterDa0 (start { zero with j := .known 0xABCD0F, m := .x })) (.scalar .da0) =
      some (.scalar (.known 0xF0)) := by decide
theorem test_set_from_counter_da1 :
    stagedIn (exec .setFromCounterDa1 (start { zero with j := .known 0x333, m := .known 0x11 })) (.scalar .da1) =
      some (.scalar (.known 0xDD)) := by decide
theorem test_set_from_counter_da1_masks :
    stagedIn (exec .setFromCounterDa1 (start { zero with j := .known 0xABCD0F, m := .known 0x12345620 }))
      (.scalar .da1) = some (.scalar (.known 0x10)) := by decide
/-- The rows 0xFF and 0x12345678 of L2.5 with MODE 1, and the row MODE = 0xFFFFFFFE. -/
theorem test_update_m :
    stagedIn (exec .updateM (start { zero with m := .known 0xFF, mode := .known 1 })) (.scalar .m) =
      some (.scalar (.known 0xFE)) ∧
    stagedIn (exec .updateM (start { zero with m := .known 0x12345678, mode := .known 1 })) (.scalar .m) =
      some (.scalar (.known 0xF0)) := by decide
theorem test_update_m_mode_clear :
    stagedIn (exec .updateM (start { zero with m := .known 0xFF, mode := .known 0xFFFFFFFE })) (.scalar .m) =
      some (.scalar (.known 0x7F)) := by decide
theorem test_update_j2 :
    stagedIn (exec .updateJ2 (start { zero with j2 := .known 0x12345678, mode := .known 1 })) (.scalar .j2) =
      some (.scalar (.known 0x3C)) := by decide
theorem test_update_j2_mode_clear :
    stagedIn (exec .updateJ2 (start { zero with j2 := .known 0xFF })) (.scalar .j2) =
      some (.scalar (.known 0xFE)) := by decide

/-! The Montgomery engine and its registers (L2.6, L2.7) -/

/-- The Montgomery rows of L2.6. -/
theorem test_mont_mul :
    montMul 0x2 0x1234 0xD01 0x94570cff = 0x690 ∧ montMul 0x89abcdef 0x01234567 0xD01 0x94570cff = 0x9CA02C ∧
    montMul 0xdeadbeef 0xdeadbeef 0xD01 0x94570cff = 0xC1B1CC77 ∧ montMul 1000 2000 0xD01 0x94570cff = 1926 ∧
    montMul 0xC00 0xC00 0xD01 0x94570cff = 1033 ∧ montMul 0x549 0x549 0xD01 0x94570cff = 0x549 ∧
    montMul 0x7FFFFFFE 0x7FFFFFFE 0x7FFFFFFF 0x80000001 = 0x40000000 ∧
    montMul 0xFFFFFFFA 0xFFFFFFFA 0xFFFFFFFB 0xCCCCCCCD = 0xCCCCCCC4 ∧
    montMul 0x12345678 0x9abcdef0 0 0 = 0xB00EA4E := by decide
theorem test_load_from_psi :
    stagedIn (exec .loadFromPsi (start { zero with psiIdx := .known 3, psi := lanes 0 0 0 0xABC 0 0 0 0 }))
      (.scalar .twiddle) = some (.scalar (.known 0xABC)) := by decide
theorem test_load_from_psi_range :
    (after (exec .loadFromPsi (start { zero with psiIdx := .known 8 }))).fault =
      some (.rangeLaneIndex (.scalar .psiIdx) 8) := by decide
theorem test_negate_mod_q :
    stagedIn (exec .negateModQ (start { zero with q := .known 0x55, twiddle := .known 0x22 })) (.scalar .twiddle) =
      some (.scalar (.known 0x33)) ∧
    stagedIn (exec .negateModQ (start { zero with q := .known 5, twiddle := .known 4 })) (.scalar .twiddle) =
      some (.scalar (.known 1)) := by decide
theorem test_negate_mod_q_precondition :
    (after (exec .negateModQ (start { zero with q := .known 5, twiddle := .known 5 }))).fault =
      some (.negPrecondition (.scalar .twiddle) 5 5) ∧
    stagedIn (exec .negateModQ (start { zero with q := .x, twiddle := .known 9 })) (.scalar .twiddle) =
      some (.scalar .x) := by decide
theorem test_update_by_omega :
    stagedIn (exec .updateByOmega (engine 0x690 0x1234)) (.scalar .twiddle) = some (.scalar (.known 0xBD9)) := by decide
/-- L2.6: the lane check comes before the X check. -/
theorem test_update_by_omega_range :
    (after (exec .updateByOmega (start { zero with omegaIdx := .known 8, twiddle := .x }))).fault =
      some (.rangeLaneIndex (.scalar .omegaIdx) 8) := by decide
/-- L2.6: the two readings of OMEGA_SQ_OPERAND. -/
theorem test_update_omega :
    let s := { engine 0 0 with cur := { (engine 0 0).cur with omega := lanes 0xdeadbeef 5 0 0 0 0 0 0x99 } }
    (updateOmegaWith .full s).pend.omega = some (lanes 0x747B41CD 0 0 0 0 0 0 0) ∧
    (updateOmegaWith .lane0 s).pend.omega = some (lanes 0xC1B1CC77 0 0 0 0 0 0 0) := by decide
theorem test_update_omega_x :
    let s := { engine 0 0 with cur := { (engine 0 0).cur with omega := (lanes 0xdeadbeef 0 0 0 0 0 0 0).set 1 .x } }
    (updateOmegaWith .full s).pend.omega = some (Vector.replicate 8 .x) ∧
    (updateOmegaWith .lane0 s).pend.omega = some (lanes 0xC1B1CC77 0 0 0 0 0 0 0) := by decide
theorem test_update_psi :
    stagedIn (exec .updatePsi (start { zero with psiIdx := .known 1, omega := lanes 0 0x89abcdef 0 0 0 0 0 0 }))
      (.wide .psi) = some (.wide (Vector.replicate 8 (.known 0x89abcdef))) := by decide
theorem test_update_psi_x :
    stagedIn (exec .updatePsi (start { zero with omega := zeroLanes.set 0 .x })) (.wide .psi) =
      some (.wide (Vector.replicate 8 .x)) := by decide

/-! The register file (L2.8), reset and the step -/

theorem test_commit :
    let t := after (exec .commit (after (exec (.write (.scalar .q)) { State.reset with wdata := 0x55 })))
    t.cur = { zero with q := .known 0x55 } ∧ t.pend = State.reset.pend ∧ t.dirty = State.reset.dirty := by decide
theorem test_abort :
    let t := after (exec .abort (after (exec (.write (.scalar .q)) { State.reset with wdata := 0x99 })))
    t.cur = zero ∧ t.pend = State.reset.pend ∧ t.dirty = State.reset.dirty := by decide
/-- The state of the first row of L2.8: `write Q, 0xD01`; `write OMEGA, 1`. -/
def twoStaged : State :=
  after (exec (.write (.wide .omega))
    { after (exec (.write (.scalar .q)) { State.reset with wdata := 0xD01 }) with wdata := 1 })
theorem test_changes :
    (traceEntries "pq" twoStaged).map traceLine = ["pq00 = 0x00000d01",
      "pq03 = 0x0000000000000000000000000000000000000000000000000000000000000001"] := by decide
theorem test_peek_ignores_pending :
    (after (exec .peek twoStaged)).out.list = .peek (List.replicate 13 (.known 0)) := by decide
/-- L2.8: 13 placeholder lines after WIPE, of 8 or 64 x. -/
theorem test_wipe :
    let lines := (traceEntries "pq" (after (exec .wipe State.reset))).map traceLine
    lines.length = 13 ∧ lines[12]? = some "pq12 = 0xxxxxxxxx" ∧
    lines[3]? = some ("pq03 = 0x" ++ String.ofList (List.replicate 64 'x')) := by decide
theorem test_step_reset :
    step { engine 7 7 with host := [.reset], fault := some .pendingInconsistent } = .next State.reset := rfl
/-- L2.1: the all-zero word is illegal. -/
theorem test_step_illegal_word :
    step (State.reset.withFetchWord 32 0) = .next (raise (.illegalCommand 0) State.reset) := rfl
theorem test_step_runs_the_placed_word :
    step (State.reset.withFetchWord 32 0x00000014) = exec .wipe State.reset ∧
    decodeTableWord 32 0x00000014 = some .wipe := ⟨rfl, by decide⟩
/-- L2.10: the record keeps the first fault, the output shows the second. -/
theorem test_first_fault_is_kept :
    let t := after (exec (.write (.scalar .q))
      { after (exec (.increment (.scalar .j)) (start { zero with j := .known 0xFFFFFFFF })) with wdata := 2 ^ 32 })
    t.fault = some (.overflow (.scalar .j) 0xFFFFFFFF) ∧ t.out.faultOut = some .rangeValue := by decide

/-! Witnesses: for each statement with hypotheses, a state and operands that meet them all -/

/-- The reset state with commands presented. -/
def presented (h : List HostEvent) : State := { State.reset with host := h }

/-- A state in the middle of a cycle, with OMEGA and Q pending. -/
theorem twoStaged_inv : twoStaged.PendingInvariant := by
  intro r
  rcases r with r | r <;> cases r <;> decide

theorem reset_inv : State.reset.PendingInvariant := by
  intro r
  rcases r with r | r <;> cases r <;> decide

theorem presented_inv (h : List HostEvent) : (presented h).PendingInvariant := by
  intro r
  rcases r with r | w
  · exact reset_inv (.scalar r)
  · exact reset_inv (.wide w)

/-- No cycle is open in a state made by `start`. -/
theorem start_closed (cur : File Val Lanes) : (start cur).CycleClosed := by
  intro r
  rcases r with r | r <;> cases r <;> exact ⟨rfl, rfl⟩

theorem start_inv (cur : File Val Lanes) : (start cur).PendingInvariant := by
  intro r
  simp [start_closed cur r]

theorem test_witness_DecodeOfEncodeIsTheCommand :
    (Instr.readLane (.wide .omega) 15).wellFormed = true ∧ (Instr.increment (.scalar .da1)).wellFormed = true ∧
    Instr.wipe.wellFormed = true := by decide
theorem test_witness_EncodeOfDecodeIsTheWord : decode 0x00003C85 = .ok (.writeLane (.wide .psi) 15) := by decide
/-- A word of each of the five kinds, at the edges of the ranges: reserved bits 14 and 31; operations 0x0C, 0x0F, 0x15;
a whole-file command with a field set; registers 13, and 4 and 10 for INCREMENT; a lane on READ. -/
theorem test_witness_IllegalWordsRaiseIllegalCommand :
    (0x00004001 : BitVec 32).toNat / 16384 ≠ 0 ∧ (0x80000010 : BitVec 32).toNat / 16384 ≠ 0 ∧
    (0x0000000C : BitVec 32).toNat % 32 = 0x0C ∧ (0x0000000F : BitVec 32).toNat % 32 = 0x0F ∧
    (0x00000015 : BitVec 32).toNat % 32 = 0x15 ∧ (0x00000030 : BitVec 32).toNat / 32 % 32 = 1 ∧
    (0x00003C14 : BitVec 32).toNat / 1024 % 16 = 15 ∧ (0x000001A3 : BitVec 32).toNat / 32 % 32 = 13 ∧
    (0x00000086 : BitVec 32).toNat / 32 % 32 = 4 ∧ (0x00000146 : BitVec 32).toNat / 32 % 32 = 10 ∧
    (0x00000421 : BitVec 32).toNat / 1024 % 16 = 1 ∧
    (presented [.command 0x00004001 5]).host = .command 0x00004001 5 :: [] := by decide
theorem test_witness_IllFormedCommandsRaiseIllegalCommand : (Instr.increment (.scalar .j2)).wellFormed = false := by
  decide
theorem test_witness_StepRunsTheDecodedCommand :
    (presented [.command 0x00000041 3, .reset]).host = .command 0x00000041 3 :: [.reset] ∧
    decode 0x00000041 = .ok (.read (.scalar .twiddle)) := by decide
theorem test_witness_StepWithoutACommandStops : (presented []).host = [] := by decide
theorem test_witness_ResetInputClearsTheBlock :
    (presented [.reset, .command 0x00000010 0]).host = .reset :: [.command 0x00000010 0] := by decide
theorem test_witness_StepKeepsThePendingInvariant :
    ∃ t, (presented [.command 0x00000003 9]).PendingInvariant ∧ step (presented [.command 0x00000003 9]) = .next t :=
  ⟨_, presented_inv _, rfl⟩
theorem test_witness_PendingInconsistencyIsUnreachable :
    ∃ t, (presented [.command 0x00000010 0]).PendingInvariant ∧
      (presented [.command 0x00000010 0]).fault ≠ some .pendingInconsistent ∧
      step (presented [.command 0x00000010 0]) = .next t :=
  ⟨after (step (presented [.command 0x00000010 0])), presented_inv _, by decide, rfl⟩
theorem test_witness_FaultsAreExact :
    (∃ t, exec (.readLane (.wide .omega) 8) State.reset = .next t ∧ t.out.faultOut = some .rangeLaneIndex) ∧
    ∃ t, step (presented [.command 0 0]) = .next t ∧ t.out.faultOut = some .illegalCommand :=
  ⟨⟨_, rfl, rfl⟩, _, rfl, rfl⟩
/-- A recorded fault with a second one coming, no fault with a first one coming, and no fault at all. -/
theorem test_witness_TheFirstFaultIsKept :
    (∃ t, (∀ rest, (presented [.command 0 0]).host ≠ .reset :: rest) ∧
      step { presented [.command 0 0] with fault := some .pendingInconsistent } = .next t) ∧
    (∃ t, step (presented [.command 0 0]) = .next t ∧ t.fault = some (.illegalCommand 0)) ∧
    (∃ t, step (presented [.command 0x00000014 0]) = .next t ∧ t.fault = none) :=
  ⟨⟨_, fun _ h => by simp [presented] at h, rfl⟩, ⟨_, rfl, rfl⟩, ⟨_, rfl, rfl⟩⟩
theorem test_witness_OnlyCommitChangesCurrentValues :
    (∀ c ∈ [((.write (.scalar .q) : Instr), 5), (.abort, 0)], c.1 ≠ .commit) ∧
    ∃ t, runCommands [(.write (.scalar .q), 5), (.abort, 0)] State.reset = .next t :=
  ⟨by decide, _, rfl⟩
/-- READ_LANE of the last lane is a read, and so are the reads after it. -/
theorem test_witness_ReadsChangeNoState :
    isRead (.readLane (.wide .psi) 7) ∧ (∀ c ∈ [((.peek : Instr), 0), (.changes, 3)], isRead c.1) ∧
    ∃ u, runCommands [(.peek, 0), (.changes, 3)] twoStaged = .next u :=
  ⟨.inr (.inr (.inl ⟨.psi, 7, rfl, by decide⟩)), by simp [isRead], _, rfl⟩
/-- Two states with the same current values and different pending values. -/
theorem test_witness_ComputingCommandsReadCurrentValuesOnly :
    (∃ r, Instr.increment (.scalar .j) = .increment r) ∧ (∀ r, twoStaged.current r = State.reset.current r) ∧
    twoStaged.pending (.scalar .q) ≠ none ∧ State.reset.pending (.scalar .q) = none := by
  refine ⟨⟨_, rfl⟩, fun r => ?_, by decide, by decide⟩
  rcases r with r | r <;> cases r <;> rfl
theorem test_witness_CommandsToDifferentRegistersCommute :
    (Instr.write (.scalar .q)).reg? = some (.scalar .q) ∧ Instr.updateByOmega.reg? = some (.scalar .twiddle) ∧
    Reg.scalar .q ≠ .scalar .twiddle ∧
    ∃ a b c d, exec (.write (.scalar .q)) { engine 2 3 with wdata := 5 } = .next a ∧
      exec .updateByOmega { a with wdata := 0 } = .next b ∧
      exec .updateByOmega { engine 2 3 with wdata := 0 } = .next c ∧
      exec (.write (.scalar .q)) { c with wdata := 5 } = .next d :=
  ⟨by decide, by decide, by decide, _, _, _, _, rfl, rfl, rfl, rfl⟩
theorem test_witness_AbortReturnsToTheStartOfTheCycle :
    (engine 2 3).CycleClosed ∧ (∀ c ∈ [((.updateByOmega : Instr), 0), (.wipe, 0)], c.1 ≠ .commit) ∧
    ∃ a, runCommands [(.updateByOmega, 0), (.wipe, 0)] (engine 2 3) = .next a :=
  ⟨start_closed _, by decide, _, rfl⟩
/-- The four cases of READ: scalar and wide, Known and X. -/
theorem test_witness_ReadAnswersTheCurrentValue :
    (start { zero with q := .known 0xFFFFFFFF }).cur.scalar .q = .known 0xFFFFFFFF ∧
    (start { zero with q := .x }).cur.scalar .q = .x ∧
    (∀ k : Fin 8, (State.reset.cur.wide .psi)[k] = .known (0 : WideWord).toNat) ∧
    ((start { zero with psi := zeroLanes.set 7 .x }).cur.wide .psi)[7] = .x := by decide
/-- READ_PENDING with a pending value and without one. -/
theorem test_witness_ReadPendingFallsBackToTheCurrentValue :
    (twoStaged.pending (.scalar .q)).getD (twoStaged.current (.scalar .q)) = .scalar (.known 0xD01) ∧
    twoStaged.pending (.scalar .j) = none := by decide
/-- Both sides of both range checks of WRITE. -/
theorem test_witness_WriteStagesTheWholeValue :
    { State.reset with wdata := 2 ^ 32 - 1 }.wdata < 2 ^ 32 ∧ 2 ^ 32 ≤ { State.reset with wdata := 2 ^ 32 }.wdata ∧
    { State.reset with wdata := 2 ^ 256 - 1 }.wdata < 2 ^ 256 ∧
    2 ^ 256 ≤ { State.reset with wdata := 2 ^ 256 }.wdata := by decide
theorem test_witness_ReadLaneAnswersOneLane : (7 : BitVec 4).toNat < 8 ∧ 8 ≤ (8 : BitVec 4).toNat := by decide
theorem test_witness_WriteLaneMergesOneLane :
    ((7 : BitVec 4).toNat < 8 ∧ { State.reset with wdata := 2 ^ 32 - 1 }.wdata < 2 ^ 32) ∧
    ((0 : BitVec 4).toNat < 8 ∧ 2 ^ 32 ≤ { State.reset with wdata := 2 ^ 32 }.wdata) ∧ 8 ≤ (8 : BitVec 4).toNat := by
  decide
theorem test_witness_LaneWritesAreIndependent :
    State.reset.PendingInvariant ∧ State.reset.pend.wide .psi = none ∧ (7 : BitVec 4).toNat < 8 ∧
    (0 : Fin 8).val ≠ (7 : BitVec 4).toNat ∧ 2 ^ 32 - 1 < 2 ^ 32 :=
  ⟨reset_inv, by decide, by decide, by decide, by decide⟩
theorem test_witness_RepeatedLaneWriteKeepsTheSecond :
    twoStaged.PendingInvariant ∧ twoStaged.pend.wide .psi = none ∧ (2 : BitVec 4).toNat < 8 ∧ 0xAAAA < 2 ^ 32 ∧
    0xBBBB < 2 ^ 32 :=
  ⟨twoStaged_inv, by decide, by decide, by decide, by decide⟩
/-- The three cases of INCREMENT: saturated, just below, and X. -/
theorem test_witness_IncrementSaturates :
    (Scalar.da1 = .omegaIdx ∨ Scalar.da1 = .psiIdx ∨ Scalar.da1 = .j ∨ Scalar.da1 = .da0 ∨ Scalar.da1 = .da1) ∧
    (start { zero with da1 := .known 0xFFFFFFFF }).cur.scalar .da1 = .known 0xFFFFFFFF ∧
    (0xFFFFFFFF : Word).toNat = 2 ^ 32 - 1 ∧ (0xFFFFFFFE : Word).toNat ≠ 2 ^ 32 - 1 ∧
    (start { zero with da1 := .x }).cur.scalar .da1 = .x := by decide
theorem test_witness_SaturatedCounterKeepsItsValue :
    let s := start { zero with j := .known 0xFFFFFFFF }
    (Scalar.j = .omegaIdx ∨ Scalar.j = .psiIdx ∨ Scalar.j = .j ∨ Scalar.j = .da0 ∨ Scalar.j = .da1) ∧
    s.CycleClosed ∧ s.cur.scalar .j = .known 0xFFFFFFFF :=
  ⟨by decide, start_closed _, rfl⟩
/-- J and M Known, and J X, for the two derived addresses. -/
theorem test_witness_OffsetAddressAddsTheStride :
    (start { zero with j := .known 0x333, m := .known 0x11 }).cur.scalar .j = .known 0x333 ∧
    (start { zero with j := .known 0x333, m := .known 0x11 }).cur.scalar .m = .known 0x11 ∧
    (start { zero with j := .x }).cur.scalar .j = .x := by decide
/-- Both parities of MODE, for UPDATE on M and on J2. -/
theorem test_witness_UpdateMShiftsTheStride :
    (0xFFFFFFFF : Word).toNat % 2 = 1 ∧ (0xFFFFFFFE : Word).toNat % 2 = 0 ∧
    (start { zero with m := .known 0x80, mode := .known 1 }).cur.scalar .m = .known 0x80 ∧
    (start { zero with mode := .known 1 }).cur.scalar .mode = .known 1 := by decide
theorem test_witness_UpdateJ2ShiftsTheOtherWay :
    (1 : Word).toNat % 2 = 1 ∧ (0 : Word).toNat % 2 = 0 ∧
    (start { zero with j2 := .known 0x80, mode := .known 1 }).cur.scalar .j2 = .known 0x80 ∧
    (start { zero with j2 := .known 0x80 }).cur.scalar .mode = .known 0 := by decide
/-- The schedule's premises; its two clauses meet at n = 6 (M = 0x80) and n = 7 (M = 0). -/
theorem test_witness_StrideScheduleRunsToZero :
    let s := start { zero with mode := .known 1, m := .known 1, j2 := .known 1 }
    s.CycleClosed ∧ s.cur.scalar .mode = .known 1 ∧ (1 : Word).toNat % 2 = 1 ∧ s.cur.scalar .m = .known 1 ∧
    s.cur.scalar .j2 = .known 1 ∧ (BitVec.ofNat 32 (2 ^ (6 + 1)) : Word) = 0x80 ∧ ¬ 7 < 7 :=
  ⟨start_closed _, by decide⟩
/-- The cases of an index counter: lane 7, the value 8, and X. -/
theorem test_witness_LoadFromPsiStagesTheSelectedLane :
    (start { zero with psiIdx := .known 7 }).cur.scalar .psiIdx = .known 7 ∧ (7 : Word).toNat = (7 : Fin 8).val ∧
    8 ≤ (8 : Word).toNat ∧ (start { zero with psiIdx := .x }).cur.scalar .psiIdx = .x := by decide
theorem test_witness_NegateModQSubtractsFromQ :
    (4 : Word).toNat < (5 : Word).toNat ∧ (5 : Word).toNat ≤ (5 : Word).toNat ∧
    (start { zero with q := .known 5, twiddle := .known 4 }).cur.scalar .q = .known 5 := by decide
theorem test_witness_TwiddleStepIsTheMontgomeryFunction :
    (engine 0x89abcdef 0x01234567).cur.scalar .omegaIdx = .known 0 ∧ (0 : Word).toNat = (0 : Fin 8).val ∧
    (engine 0x89abcdef 0x01234567).cur.scalar .twiddle = .known 0x89abcdef ∧
    ((engine 0x89abcdef 0x01234567).cur.wide .omega)[(0 : Fin 8)] = .known 0x01234567 ∧
    (engine 0x89abcdef 0x01234567).cur.scalar .q = .known 0xD01 ∧
    (engine 0x89abcdef 0x01234567).cur.scalar .qdash = .known 0x94570cff := by decide
/-- The cases of UPDATE_BY_OMEGA: counter X, counter 8, and an X operand with lane 7. -/
theorem test_witness_UpdateByOmegaFaultsOrStagesX :
    (start { zero with omegaIdx := .x }).cur.scalar .omegaIdx = .x ∧ 8 ≤ (8 : Word).toNat ∧
    (7 : Word).toNat = (7 : Fin 8).val ∧
    (start { zero with omegaIdx := .known 7, qdash := .x }).cur.scalar .qdash = .x := by decide
/-- The modulus pair of V-L1-12 with operands below q (L2.6, row 4), and with q - 1. -/
theorem test_witness_TwiddleStepIsTheReducedProduct :
    let s := engine 0xD00 2000
    s.cur.scalar .omegaIdx = .known 0 ∧ (0 : Word).toNat = (0 : Fin 8).val ∧ s.cur.scalar .twiddle = .known 0xD00 ∧
    (s.cur.wide .omega)[(0 : Fin 8)] = .known 2000 ∧ s.cur.scalar .q = .known 0xD01 ∧
    s.cur.scalar .qdash = .known 0x94570cff ∧ ModulusPair (0xD01 : Word).toNat (0x94570cff : Word).toNat ∧
    (0xD00 : Word).toNat < (0xD01 : Word).toNat ∧ (2000 : Word).toNat < (0xD01 : Word).toNat := by
  refine ⟨?_, ?_, ?_, ?_, ?_, ?_, ⟨?_, ?_, ?_⟩, ?_⟩ <;> decide
/-- Two OMEGA values that differ above lane 1, and one whose lane 1 is 0. -/
theorem test_witness_OmegaSquareReadsTheLow64Bits :
    (∀ k : Fin 8, (lanes 1 2 3 4 5 6 7 8)[k] ≠ .x ∧ (lanes 1 2 0 0 0 0 0 0)[k] ≠ .x) ∧
    (lanes 1 2 3 4 5 6 7 8)[1] = (lanes 1 2 0 0 0 0 0 0)[1] ∧
    lanes 1 2 3 4 5 6 7 8 ≠ lanes 1 2 0 0 0 0 0 0 ∧ (lanes 1 0 3 4 5 6 7 8)[1] = .known 0 := by decide
/-- The operand forms: eight Known lanes, an X lane, and lane 0 Known and X. -/
theorem test_witness_OmegaSquareOperandHasTwoReadings :
    (∀ k : Fin 8, zeroLanes[k] = .known ((0 : WideWord).extractLsb' (32 * k) 32)) ∧
    (zeroLanes.set 7 .x)[(7 : Fin 8)] = .x ∧ (lanes 5 0 0 0 0 0 0 0)[0] = .known 5 ∧ (zeroLanes.set 0 .x)[0] = .x := by
  decide
/-- The cases of UPDATE on PSI: lane 7, the value 8, and X. -/
theorem test_witness_UpdatePsiBroadcastsOneLane :
    (start { zero with psiIdx := .known 7 }).cur.scalar .psiIdx = .known 7 ∧ (7 : Word).toNat = (7 : Fin 8).val ∧
    8 ≤ (8 : Word).toNat ∧ (start { zero with psiIdx := .x }).cur.scalar .psiIdx = .x := by decide
theorem test_witness_CommitMakesPendingValuesCurrent : twoStaged.PendingInvariant ∧ twoStaged.isDirty (.wide .omega) :=
  ⟨twoStaged_inv, by decide⟩
theorem test_witness_AbortDiscardsPendingValues : twoStaged.PendingInvariant ∧ twoStaged.isDirty (.scalar .q) :=
  ⟨twoStaged_inv, by decide⟩
theorem test_witness_ClosingTwiceIsClosingOnce :
    (engine 2 3).PendingInvariant ∧ (Instr.abort = .commit ∨ Instr.abort = .abort) ∧
    ∀ r, (engine 2 3).isDirty r = false :=
  ⟨start_inv _, by decide, fun r => (start_closed _ r).1⟩
theorem test_witness_ChangesListsThePendingSet :
    twoStaged.PendingInvariant ∧ twoStaged.isDirty (.scalar .q) = true ∧ twoStaged.isDirty (.scalar .j) = false :=
  ⟨twoStaged_inv, by decide, by decide⟩
/-- The largest number 8 digits hold, and the placeholder. -/
theorem test_witness_TraceLineHasWidthOverFourDigits :
    (TraceEntry.mk "pq00" 32 (some 0xFFFFFFFF)).value = some 0xFFFFFFFF ∧ 0xFFFFFFFF < 16 ^ (32 / 4) ∧
    (TraceEntry.mk "pq00" 32 none).value = none := by decide
theorem test_witness_WipedFileIsAllX :
    (Instr.increment (.scalar .da0)).wellFormed = true ∧ (Instr.increment (.scalar .omegaIdx)).wellFormed = true := by
  decide

end Sys2Proof.Tests
end

section
/-! PROOFS. What one step can do at all (20_memory.md R57, 30_encoding.md R70, R75), and the invariant of the pending
set, kept by every step (10_state.md R33). -/

namespace Sys2Proof.Machine

/-- What a presented word can do: the effect of the command it decodes to, or ILLEGAL_COMMAND (R74, R75). -/
theorem runWord_cases {cmd : BitVec 32} {s t : State} (h : runWord cmd s = .next t) :
    (∃ i, decode cmd = .ok i ∧ exec i s = .next t ∧ Effect i s t) ∨
    ((∃ e, decode cmd = .error e) ∧ t = raise (.illegalCommand cmd) s) := by
  cases hd : decode cmd with
  | ok i =>
    simp only [runWord, hd] at h
    obtain ⟨t', ht', effect⟩ := exec_effect i s
    obtain rfl : t' = t := by simpa [ht'] using h
    exact .inl ⟨i, rfl, ht', effect⟩
  | error e =>
    simp only [runWord, hd, Host.Outcome.next.injEq] at h
    exact .inr ⟨⟨e, rfl⟩, h.symm⟩

/-- THE INVERSION OF `step`: a step that answers a next state took the reset input, or executed one command word. -/
theorem step_cases {s t : State} (h : step s = .next t) :
    (∃ rest, s.host = .reset :: rest ∧ t = resetBlock rest) ∨
    (∃ cmd wdata rest, s.host = .command cmd wdata :: rest ∧ runWord cmd (acceptCommand rest wdata s) = .next t) := by
  unfold step at h
  split at h
  case h_1 => cases h
  case h_2 rest hhost => exact .inl ⟨rest, hhost, (Host.Outcome.next.inj h).symm⟩
  case h_3 cmd wdata rest hhost => exact .inr ⟨cmd, wdata, rest, hhost, h⟩

/-- The invariant speaks of pending values and Dirty flags alone. -/
theorem State.PendingInvariant.congr {s t : State} (hs : s.PendingInvariant)
    (h : ∀ r, t.pending r = s.pending r ∧ t.isDirty r = s.isDirty r) : t.PendingInvariant := by
  intro r
  obtain ⟨hpend, hdirty⟩ := h r
  rw [hpend, hdirty]
  exact hs r

theorem State.PendingInvariant.finish {s : State} (hs : s.PendingInvariant) :
    (Sys2Proof.Machine.finish s).PendingInvariant :=
  hs.congr fun _ => ⟨rfl, rfl⟩

theorem State.PendingInvariant.acceptCommand {s : State} (hs : s.PendingInvariant) (rest : List HostEvent)
    (wdata : Nat) : (Sys2Proof.Machine.acceptCommand rest wdata s).PendingInvariant :=
  hs.congr fun _ => ⟨rfl, rfl⟩

/-- Staging gives the register its flag together with its value (R34). -/
theorem StagesOnly.pendingInvariant {s t : State} {r : Reg} {v : RegValue} (h : StagesOnly s r v t)
    (hs : s.PendingInvariant) : t.PendingInvariant := by
  obtain ⟨hpend, hdirty, hothers, -⟩ := h
  intro r'
  by_cases hr : r' = r
  · subst hr
    simp [hpend, hdirty]
  · obtain ⟨hpend', hdirty'⟩ := hothers r' hr
    rw [hpend', hdirty']
    exact hs r'

theorem AnswersOnly.pendingInvariant {s t : State} {o : Output} (h : AnswersOnly s o t) (hs : s.PendingInvariant) :
    t.PendingInvariant := by
  obtain ⟨hregs, -⟩ := h
  exact hs.congr fun r => (hregs r).2

theorem RaisesOnly.pendingInvariant {s t : State} {f : BlockFault} (h : RaisesOnly s f t) (hs : s.PendingInvariant) :
    t.PendingInvariant := by
  obtain ⟨hregs, -⟩ := h
  exact hs.congr fun r => (hregs r).2

/-- A closed cycle meets the invariant: no register is in P and none holds a pending value (R13, R33). -/
theorem State.CycleClosed.pendingInvariant {s : State} (h : s.CycleClosed) : s.PendingInvariant := by
  intro r
  obtain ⟨hdirty, hpend⟩ := h r
  simp [hdirty, hpend]

/-- Outside P nothing is pending. -/
theorem State.PendingInvariant.pending_eq_none {s : State} (hs : s.PendingInvariant) {r : Reg}
    (h : s.isDirty r = false) : s.pending r = none := by
  by_contra hpend
  simp [(hs r).mpr hpend] at h

/-- Where P holds every register with a pending value, discarding the members of P closes the cycle (R172). -/
theorem discardPending_closed {s : State} (hs : s.PendingInvariant) : (discardPending s).CycleClosed := by
  intro r
  obtain ⟨hdirty, hpend⟩ := discardPending_spec s r
  refine ⟨hdirty, ?_⟩
  rw [hpend]
  split
  · rfl
  · exact hs.pending_eq_none (Bool.eq_false_iff.mpr ‹_›)

/-- COMMIT leaves the same pending values and flags as ABORT, so it closes the cycle too (R170). -/
theorem commitPending_closed {s : State} (hs : s.PendingInvariant) : (commitPending s).CycleClosed :=
  discardPending_closed (hs.congr fun _ => ⟨rfl, rfl⟩)

/-- WIPE puts every register in P with a pending value (R180). -/
theorem poisonAll_pendingInvariant (s : State) : (poisonAll s).PendingInvariant := by
  intro r
  obtain ⟨hdirty, hpend⟩ := poisonAll_spec s r
  exact iff_of_true hdirty hpend

/-- The reset input closes the cycle (R230). -/
theorem resetBlock_closed (rest : List HostEvent) : (resetBlock rest).CycleClosed := by
  rintro (r | w)
  · cases r <;> exact ⟨rfl, rfl⟩
  · cases w <;> exact ⟨rfl, rfl⟩

/-- No effect of a command breaks the invariant of R33. -/
theorem Effect.pendingInvariant {i : Instr} {s t : State} (h : Effect i s t) (hs : s.PendingInvariant) :
    t.PendingInvariant := by
  cases h with
  | stage r v _ hstage => exact hstage.pendingInvariant hs
  | answer o _ hanswer => exact hanswer.pendingInvariant hs
  | raise f _ hraise => exact hraise.pendingInvariant hs
  | commit => exact (commitPending_closed hs).pendingInvariant.finish
  | abort => exact (discardPending_closed hs).pendingInvariant.finish
  | wipe => exact (poisonAll_pendingInvariant s).finish

theorem runWord_pendingInvariant {cmd : BitVec 32} {s t : State} (h : runWord cmd s = .next t)
    (hs : s.PendingInvariant) : t.PendingInvariant := by
  obtain ⟨i, -, -, effect⟩ | ⟨-, rfl⟩ := runWord_cases h
  · exact effect.pendingInvariant hs
  · exact (raise_raisesOnly _ s).pendingInvariant hs

/-- Settles O11: the reset input closes the cycle, and a command word, legal or not, keeps the invariant. -/
theorem stepKeepsThePendingInvariant : Obligations.StepKeepsThePendingInvariant := by
  intro s t hs h
  obtain ⟨rest, -, rfl⟩ | ⟨cmd, wdata, rest, -, hrun⟩ := step_cases h
  · exact (resetBlock_closed rest).pendingInvariant
  · exact runWord_pendingInvariant hrun (hs.acceptCommand rest wdata)

end Sys2Proof.Machine
end

section
/-! PROOFS. Reads change no state and repeat their answer (20_memory.md R58). -/

namespace Sys2Proof.Machine

/-- `t` holds the current values, the pending values and the Dirty flags of `s`: everything a read looks at. -/
def State.SameRegisters (s t : State) : Prop :=
  ∀ r, t.current r = s.current r ∧ t.pending r = s.pending r ∧ t.isDirty r = s.isDirty r

section
variable {s t u : State}

theorem State.SameRegisters.refl (s : State) : s.SameRegisters s := fun _ => ⟨rfl, rfl, rfl⟩

theorem State.SameRegisters.trans (hst : s.SameRegisters t) (htu : t.SameRegisters u) : s.SameRegisters u := by
  intro r
  obtain ⟨hcur, hpend, hdirty⟩ := hst r
  obtain ⟨hcur', hpend', hdirty'⟩ := htu r
  exact ⟨hcur'.trans hcur, hpend'.trans hpend, hdirty'.trans hdirty⟩

theorem AnswersOnly.sameRegisters {o : Output} (h : AnswersOnly s o t) : s.SameRegisters t := by
  obtain ⟨hregs, -⟩ := h
  exact hregs

theorem State.SameRegisters.current_eq (h : s.SameRegisters t) : t.current = s.current := by
  funext r
  obtain ⟨hcur, -, -⟩ := h r
  exact hcur

theorem State.SameRegisters.pending_eq (h : s.SameRegisters t) : t.pending = s.pending := by
  funext r
  obtain ⟨-, hpend, -⟩ := h r
  exact hpend

theorem State.SameRegisters.isDirty_eq (h : s.SameRegisters t) : t.isDirty = s.isDirty := by
  funext r
  obtain ⟨-, -, hdirty⟩ := h r
  exact hdirty

/-- Putting write data on the bus touches no register (R70). -/
theorem State.SameRegisters.of_wdata (d : Nat) (h : State.SameRegisters { s with wdata := d } t) :
    s.SameRegisters t :=
  .trans (t := { s with wdata := d }) (.refl s) h

theorem State.SameRegisters.wide_eq (h : s.SameRegisters t) (w : Wide) : t.cur.wide w = s.cur.wide w := by
  simpa using congrFun h.current_eq (.wide w)

theorem State.SameRegisters.pendingOrCurrent_eq (h : s.SameRegisters t) (r : Reg) :
    pendingOrCurrent r t = pendingOrCurrent r s := by
  simp only [pendingOrCurrent, h.current_eq, h.pending_eq]

theorem State.SameRegisters.traceEntries_eq (h : s.SameRegisters t) (tracePrefix : String) :
    traceEntries tracePrefix t = traceEntries tracePrefix s := by
  simp only [traceEntries, h.pending_eq, h.isDirty_eq]

end

/-- READ_LANE of a lane that exists answers that lane of the current value (R106). -/
theorem exec_readLane_of_lt (w : Wide) {k : BitVec 4} (hk : k.toNat < 8) (s : State) :
    exec (.readLane (.wide w) k) s = .next (answer (zext256 (s.cur.wide w)[k.toNat]) s) := by
  simp [exec, execReadLane, laneOfField, hk]

/-- THE ANSWER OF A READ is fixed by the registers: one output serves every state that holds the registers of `s`, and
the read changes nothing else there. -/
theorem isRead.answersOnly {i : Instr} (hi : isRead i) (s : State) :
    ∃ o, ∀ u, s.SameRegisters u → ∃ v, exec i u = .next v ∧ AnswersOnly u o v := by
  obtain ⟨r, rfl⟩ | ⟨r, rfl⟩ | ⟨w, k, rfl, hk⟩ | rfl | rfl := hi
  · refine ⟨readOutput (s.current r).number, fun u hu => ⟨_, rfl, ?_⟩⟩
    rw [← hu.current_eq]
    exact answer_answersOnly _ u
  · refine ⟨readOutput (pendingOrCurrent r s).number, fun u hu => ⟨_, rfl, ?_⟩⟩
    rw [← hu.pendingOrCurrent_eq r]
    exact answer_answersOnly _ u
  · refine ⟨readOutput (zext256 (s.cur.wide w)[k.toNat]), fun u hu => ⟨_, exec_readLane_of_lt w hk u, ?_⟩⟩
    simp only [← hu.wide_eq w]
    exact answer_answersOnly _ u
  · refine ⟨{ Output.idle with list := .changes (traceEntries Config.tracePrefix s) }, fun u hu => ⟨_, rfl, ?_⟩⟩
    rw [← hu.traceEntries_eq]
    exact answerList_answersOnly _ u
  · refine ⟨{ Output.idle with list := .peek (allRegs.map fun r => (s.current r).number) }, fun u hu => ⟨_, rfl, ?_⟩⟩
    rw [← hu.current_eq]
    exact answerList_answersOnly _ u

/-- A sequence of reads keeps every register. -/
theorem runCommands_reads_sameRegisters {js : List (Instr × Nat)} (hjs : ∀ c ∈ js, isRead c.1) {s u : State}
    (h : runCommands js s = .next u) : s.SameRegisters u := by
  induction js generalizing s with
  | nil =>
    obtain rfl : s = u := Host.Outcome.next.inj h
    exact .refl s
  | cons c js ih =>
    obtain ⟨j, d⟩ := c
    obtain ⟨hj, hrest⟩ := List.forall_mem_cons.mp hjs
    obtain ⟨o, ho⟩ := hj.answersOnly { s with wdata := d }
    obtain ⟨t, ht, hanswer⟩ := ho _ (.refl _)
    simp only [runCommands, ht] at h
    exact (State.SameRegisters.of_wdata d hanswer.sameRegisters).trans (ih hrest h)

/-- Settles O19: the answer is fixed by the registers, and neither the read nor the reads after it change one. -/
theorem readsChangeNoState : Obligations.ReadsChangeNoState := by
  intro i s hi
  obtain ⟨o, ho⟩ := hi.answersOnly s
  obtain ⟨t, ht, hanswer⟩ := ho s (.refl s)
  refine ⟨o, t, ht, hanswer, fun js u hjs hrun => ?_⟩
  have hsame : s.SameRegisters u := hanswer.sameRegisters.trans (runCommands_reads_sameRegisters hjs hrun)
  obtain ⟨v, hv, -, -, -, -, hout⟩ := ho u hsame
  exact ⟨v, hv, hout⟩

end Sys2Proof.Machine
end

section
/-! PROOFS. What READ, READ_PENDING and READ_LANE answer (40_register_access.md R100 to R106). -/

namespace Sys2Proof.Machine

/-- The number that eight lane contents spell, lane 0 lowest (R52). -/
def concatLanes (a : Fin 8 → Word) : WideWord := a 7 ++ a 6 ++ a 5 ++ a 4 ++ a 3 ++ a 2 ++ a 1 ++ a 0

/-- Bits 32k+31 to 32k of the number are lane k (R52): the lanes below it are shifted out, those above it cut off. -/
theorem extractLsb'_concatLanes (a : Fin 8 → Word) (k : Fin 8) : (concatLanes a).extractLsb' (32 * k) 32 = a k := by
  unfold concatLanes
  fin_cases k <;>
    simp (disch := omega) only [BitVec.extractLsb'_append_eq_of_add_le, BitVec.extractLsb'_append_eq_of_le] <;>
    exact BitVec.extractLsb'_eq_self

/-- Eight Known lanes have a Known whole value (R10, R52). -/
theorem wholeValue_of_known {l : Lanes} {a : Fin 8 → Word} (h : ∀ k : Fin 8, l[k] = .known (a k)) :
    wholeValue l = .known (concatLanes a) := by
  have hlane (k : Nat) (hk : k < 8) : l[k] = .known (a ⟨k, hk⟩) := h ⟨k, hk⟩
  simp [wholeValue, concatLanes, hlane]

/-- One X lane makes the whole value X (R10). -/
theorem wholeValue_of_x {l : Lanes} {k : Fin 8} (h : l[k] = .x) : wholeValue l = .x := by
  unfold wholeValue
  split
  next => fin_cases k <;> simp_all
  next => rfl

/-- The whole value of a wide register is the number of its Known lanes, or X when a lane is X (R10, R52). -/
theorem wholeValue_cases (l : Lanes) :
    (∃ n : WideWord, (∀ k : Fin 8, l[k] = .known (n.extractLsb' (32 * k) 32)) ∧ wholeValue l = .known n) ∨
    ((∃ k : Fin 8, l[k] = .x) ∧ wholeValue l = .x) := by
  by_cases hx : ∃ k : Fin 8, l[k] = .x
  · obtain ⟨k, hk⟩ := hx
    exact .inr ⟨⟨k, hk⟩, wholeValue_of_x hk⟩
  · have hknown (k : Fin 8) : ∃ a, l[k] = .known a := by
      cases h : l[k] with
      | known a => exact ⟨a, rfl⟩
      | x => exact absurd ⟨k, h⟩ hx
    choose a ha using hknown
    exact .inl ⟨concatLanes a, fun k => by rw [ha k, extractLsb'_concatLanes], wholeValue_of_known ha⟩

/-- A read of a Known 32-bit value answers it zero-extended (R72, R100). -/
theorem answer_zext256_known (v : Word) (s : State) :
    AnswersOnly s (knownOutput (BitVec.ofNat 256 v.toNat)) (answer (zext256 (.known v)) s) := by
  rw [BitVec.ofNat_toNat]
  exact answer_answersOnly (.known (v.setWidth 256)) s

/-- A read of an X value answers the X indication (R72, R100). -/
theorem answer_x (s : State) : AnswersOnly s unknownOutput (answer .x s) :=
  answer_answersOnly .x s

/-- A read of a wide value answers the number of its eight Known lanes, or the X indication (R72, R100). -/
theorem answer_wholeValue (l : Lanes) (s : State) :
    (∃ n : WideWord, (∀ k : Fin 8, l[k] = .known (n.extractLsb' (32 * k) 32)) ∧
      AnswersOnly s (knownOutput n) (answer (wholeValue l) s)) ∨
    ((∃ k : Fin 8, l[k] = .x) ∧ AnswersOnly s unknownOutput (answer (wholeValue l) s)) := by
  obtain ⟨n, hlanes, h⟩ | ⟨hx, h⟩ := wholeValue_cases l <;> rw [h]
  · exact .inl ⟨n, hlanes, answer_answersOnly (.known n) s⟩
  · exact .inr ⟨hx, answer_x s⟩

/-- The words of READ (R71, R73). -/
theorem decode_read_word (r : Reg) : decode (BitVec.ofNat 32 (0x01 + 32 * r.index)) = .ok (.read r) := by
  rcases r with c | w
  · cases c <;> decide
  · cases w <;> decide

/-- The words of READ_PENDING (R71, R73). -/
theorem decode_readPending_word (r : Reg) :
    decode (BitVec.ofNat 32 (0x02 + 32 * r.index)) = .ok (.readPending r) := by
  rcases r with c | w
  · cases c <;> decide
  · cases w <;> decide

/-- The words of READ_LANE, lane fields of 8 to 15 included (R71, R73, R74). -/
theorem decode_readLane_word (w : Wide) (k : BitVec 4) :
    decode (BitVec.ofNat 32 (0x04 + 32 * (Reg.wide w).index + 1024 * k.toNat)) = .ok (.readLane (.wide w) k) := by
  revert k
  cases w <;> decide

/-- READ_LANE of a lane field of 8 to 15 raises RANGE_LANE_INDEX (R106). -/
theorem exec_readLane_of_ge (w : Wide) {k : BitVec 4} (hk : 8 ≤ k.toNat) (s : State) :
    exec (.readLane (.wide w) k) s = .next (raise (.rangeLaneIndex (.wide w) k.toNat) s) := by
  simp [exec, execReadLane, laneOfField, Nat.not_lt.mpr hk]

/-- What READ_PENDING reads is the pending value, else the current value (R102, conflict C2). -/
theorem pendingOrCurrent_eq (r : Reg) (s : State) : pendingOrCurrent r s = (s.pending r).getD (s.current r) := by
  cases h : s.pending r <;> simp [pendingOrCurrent, h]

/-- Settles O23: a scalar answers by its value state, a wide register by its whole value. -/
theorem readAnswersTheCurrentValue : Obligations.ReadAnswersTheCurrentValue := by
  refine ⟨fun c s => ⟨decode_read_word _, _, rfl, ?_⟩, fun w s => ⟨decode_read_word _, _, rfl, ?_⟩⟩
  · rw [State.current_scalar, RegValue.number]
    cases s.cur.scalar c with
    | known v => exact answer_zext256_known v s
    | x => exact answer_x s
  · exact answer_wholeValue (s.cur.wide w) s

/-- Settles O24: the value read is the pending one or the current one, and it answers as a READ of it does. -/
theorem readPendingFallsBackToTheCurrentValue : Obligations.ReadPendingFallsBackToTheCurrentValue := by
  intro r s
  refine ⟨decode_readPending_word r, _, rfl, ?_⟩
  rw [pendingOrCurrent_eq]
  rcases (s.pending r).getD (s.current r) with (v | _) | l
  · exact answer_zext256_known v s
  · exact answer_x s
  · exact answer_wholeValue l s

/-- Settles O26: the lane field is below 8 and names a lane, or the range check raises. -/
theorem readLaneAnswersOneLane : Obligations.ReadLaneAnswersOneLane := by
  intro w k s
  refine ⟨decode_readLane_word w k, fun hk => ⟨_, exec_readLane_of_lt w hk s, ?_⟩,
    fun hk => ⟨_, exec_readLane_of_ge w hk s, raise_raisesOnly _ s⟩⟩
  cases (s.cur.wide w)[k.toNat] with
  | known v => exact answer_zext256_known v s
  | x => exact answer_x s

end Sys2Proof.Machine
end

section
/-! PROOFS. The counters: INCREMENT, the plain derived address, and the stride update on M (41_counters.md R120, R124,
R128). -/

namespace Sys2Proof.Machine

section
variable {c : Scalar} {s : State} {v : Word}

/-- The kind table lists INCREMENT for five counters (R35, R120). -/
theorem exec_increment_counter (s : State) (hc : c = .omegaIdx ∨ c = .psiIdx ∨ c = .j ∨ c = .da0 ∨ c = .da1) :
    exec (.increment (.scalar c)) s = .next (incrementCounter c s) := by
  rcases hc with rfl | rfl | rfl | rfl | rfl <;> rfl

/-- The words of INCREMENT (R71, R73). -/
theorem decode_increment_word (hc : c = .omegaIdx ∨ c = .psiIdx ∨ c = .j ∨ c = .da0 ∨ c = .da1) :
    decode (BitVec.ofNat 32 (0x06 + 32 * (Reg.scalar c).index)) = .ok (.increment (.scalar c)) := by
  rcases hc with rfl | rfl | rfl | rfl | rfl <;> decide

theorem incrementCounter_of_x (h : s.cur.scalar c = .x) : incrementCounter c s = finish (stageScalar c .x s) := by
  simp only [incrementCounter, h]

theorem incrementCounter_of_saturated (h : s.cur.scalar c = .known v) (hv : v.toNat = 2 ^ 32 - 1) :
    incrementCounter c s = raise (.overflow (.scalar c) v) s := by
  simp only [incrementCounter, h, if_pos hv]

theorem incrementCounter_of_not_saturated (h : s.cur.scalar c = .known v) (hv : v.toNat ≠ 2 ^ 32 - 1) :
    incrementCounter c s = finish (stageScalar c (.known (v + 1)) s) := by
  simp only [incrementCounter, h, if_neg hv]

end

/-- Settles O30: the three cases of the counter's value are the three cases of the increment. -/
theorem incrementSaturates : Obligations.IncrementSaturates := by
  intro c s hc
  refine ⟨decode_increment_word hc, _, exec_increment_counter s hc, ?_⟩
  cases hval : s.cur.scalar c with
  | x =>
    rw [incrementCounter_of_x hval]
    exact stageScalar_stagesOnly c .x s
  | known v =>
    by_cases hv : v.toNat = 2 ^ 32 - 1
    · simp only [if_pos hv, incrementCounter_of_saturated hval hv]
      exact raise_raisesOnly _ s
    · have hsucc : BitVec.ofNat 32 (v.toNat + 1) = v + 1 := by simp [BitVec.ofNat_add]
      simp only [if_neg hv, incrementCounter_of_not_saturated hval hv, hsucc]
      exact stageScalar_stagesOnly c _ s

/-- Bit j of the reversed byte is bit 7 - j of the byte (R122). -/
theorem getLsbD_rev8 (b : BitVec 8) {j : Nat} (hj : j < 8) : (rev8 b).getLsbD j = b.getLsbD (7 - j) := by
  simp only [rev8, BitVec.getLsbD_append, BitVec.getLsbD_ofBool]
  interval_cases j <;> simp

/-- The plain address is one byte (R124). -/
theorem plainAddress_toNat_lt (c : Word) : (plainAddress c).toNat < 256 := by
  rw [plainAddress, BitVec.toNat_setWidth_of_le (by decide)]
  exact (rev8 _).isLt

/-- Bit j of the plain address is bit 7 - j of the counter (R124). -/
theorem getLsbD_plainAddress (c : Word) {j : Nat} (hj : j < 8) :
    (plainAddress c).getLsbD j = c.getLsbD (7 - j) := by
  have hj' : 7 - j < 8 := by omega
  simp [plainAddress, getLsbD_rev8 _ hj, hj', show j < 32 by omega]

/-- Settles O33: the address staged is the plain address of J, one byte whose bits are those of J reversed. -/
theorem plainAddressIsTheReversedLowByte : Obligations.PlainAddressIsTheReversedLowByte := by
  intro s
  refine ⟨by decide, _, rfl, ?_⟩
  cases s.cur.scalar .j with
  | x => exact stageScalar_stagesOnly .da0 .x s
  | known c =>
    have hlt := plainAddress_toNat_lt c
    exact ⟨plainAddress c, stageScalar_stagesOnly .da0 _ s, hlt, by omega, fun j hj => getLsbD_plainAddress c hj⟩

/-- The growing stride as a number: the low 7 bits move up one place (R128). -/
theorem strideGrow_eq (v : Word) : strideGrow v = BitVec.ofNat 32 (v.toNat % 128 * 2) := by
  have hmask : v.toNat &&& 0x7F = v.toNat % 128 := Nat.and_two_pow_sub_one_eq_mod v.toNat 7
  apply BitVec.eq_of_toNat_eq
  simp [strideGrow, hmask, Nat.shiftLeft_eq]

/-- The shrinking stride as a number: the low 8 bits move down one place (R128). -/
theorem strideShrink_eq (v : Word) : strideShrink v = BitVec.ofNat 32 (v.toNat % 256 / 2) := by
  have hmask : v.toNat &&& 0xFF = v.toNat % 256 := Nat.and_two_pow_sub_one_eq_mod v.toNat 8
  apply BitVec.eq_of_toNat_eq
  rw [BitVec.toNat_ofNat, Nat.mod_eq_of_lt (by omega)]
  simp [strideShrink, hmask, Nat.shiftRight_eq_div_pow]

/-- The mode flag is the parity of MODE (R31). -/
theorem modeFlag_eq (f : Word) : modeFlag f = decide (f.toNat % 2 = 1) := by
  simp [modeFlag, BitVec.getLsbD, Nat.testBit_zero]

section
variable {v f : Word} (onSet onClear : Word → Word)

theorem strideValue_of_odd (hf : f.toNat % 2 = 1) :
    strideValue onSet onClear (.known v) (.known f) = .known (onSet v) := by
  simp [strideValue, modeFlag_eq, hf]

theorem strideValue_of_even (hf : f.toNat % 2 = 0) :
    strideValue onSet onClear (.known v) (.known f) = .known (onClear v) := by
  simp [strideValue, modeFlag_eq, hf]

end

/-- Settles O36: with both operands Known the parity of MODE picks the stride, and an X operand gives X. -/
theorem updateMShiftsTheStride : Obligations.UpdateMShiftsTheStride := by
  intro s
  refine ⟨by decide, _, rfl, ?_⟩
  have hstage (a : Val) := stageScalar_stagesOnly .m a s
  cases s.cur.scalar .m with
  | x => exact hstage .x
  | known v =>
    cases s.cur.scalar .mode with
    | x => exact hstage .x
    | known f =>
      refine ⟨fun hodd => ?_, fun heven => ?_⟩
      · rw [strideValue_of_odd _ _ hodd, strideGrow_eq]
        exact hstage _
      · rw [strideValue_of_even _ _ heven, strideShrink_eq]
        exact hstage _

end Sys2Proof.Machine
end

section
/-! PROOFS. The Montgomery step of UPDATE_BY_OMEGA (42_arithmetic.md R140, R141, R152). -/

namespace Sys2Proof.Machine

/-- The Montgomery function in division form: `t` is cut to 32 bits, then `q` is subtracted at most once (R141). -/
theorem montMul_eq (a b q qd : Nat) :
    montMul a b q qd =
      let t := (a * b + a * b % 2 ^ 32 * qd % 2 ^ 32 * q) / 2 ^ 32 % 2 ^ 32
      if q ≤ t then t - q else t := by
  simp only [montMul, Nat.shiftRight_eq_div_pow, ge_iff_le]

/-- Known operands have a Known Montgomery product (R152). -/
theorem montValue_known (a b q qd : Word) :
    montValue (.known a) (.known b) (.known q) (.known qd) =
      .known (BitVec.ofNat 32 (montMul a.toNat b.toNat q.toNat qd.toNat)) := rfl

/-- A counter that holds the number of a lane selects that lane (R146). -/
theorem withSelectedLane_of_lane {c : Scalar} {s : State} {n : Word} {k : Fin 8} (hc : s.cur.scalar c = .known n)
    (hk : n.toNat = k.val) (next : Option (Fin 8) → State) : withSelectedLane c s next = next (some k) := by
  have hlt : n.toNat < 8 := hk ▸ k.isLt
  simp [withSelectedLane, hc, selectLane_known_lt hlt, hk]

/-- With a selected lane UPDATE_BY_OMEGA stages the Montgomery product of the twiddle and that OMEGA lane (R152). -/
theorem exec_updateByOmega_of_lane {s : State} {c : Word} {k : Fin 8} (hc : s.cur.scalar .omegaIdx = .known c)
    (hk : c.toNat = k.val) :
    exec .updateByOmega s = .next (finish (stageScalar .twiddle
      (montValue (s.cur.scalar .twiddle) (s.cur.wide .omega)[k] (s.cur.scalar .q) (s.cur.scalar .qdash)) s)) :=
  congrArg _ (withSelectedLane_of_lane hc hk _)

/-- Settles O41: the selected lane and the other Known operands have a Known product, the Montgomery formula in
division form. -/
theorem twiddleStepIsTheMontgomeryFunction : Obligations.TwiddleStepIsTheMontgomeryFunction := by
  intro s k c a b q qd hc hk ha hb hq hqd
  refine ⟨_, exec_updateByOmega_of_lane hc hk, ?_⟩
  rw [ha, hb, hq, hqd, montValue_known, montMul_eq]
  exact stageScalar_stagesOnly .twiddle _ s

end Sys2Proof.Machine
end

section
/-! PROOFS. Closing a cycle by COMMIT or ABORT, and WIPE (43_register_file.md R170, R172, R173, R180). -/

namespace Sys2Proof.Machine

section
variable (s : State) (r : Reg)

@[simp] theorem discardPending_current : (discardPending s).current r = s.current r := rfl
@[simp] theorem poisonAll_current : (poisonAll s).current r = s.current r := rfl

end

theorem State.CycleClosed.finish {s : State} (h : s.CycleClosed) : (Sys2Proof.Machine.finish s).CycleClosed := h

/-- `t` is `s` with its cycle closed and `cur` as the current values; the fault record and the host's side are those
of `s`, and the outputs are those of a command that is no read (R72). -/
def State.ClosesTo (s : State) (cur : Reg → RegValue) (t : State) : Prop :=
  t.CycleClosed ∧ (∀ r, t.current r = cur r) ∧ t.fault = s.fault ∧ t.host = s.host ∧ t.wdata = s.wdata ∧
  t.out = Output.idle

section
variable {s t : State}

/-- Under R33 the check for PENDING_INCONSISTENT passes, and COMMIT applies the pending set (R170). -/
theorem exec_commit_of_pendingInvariant (hs : s.PendingInvariant) :
    exec .commit s = .next (finish (commitPending s)) := by
  simp [exec, execCommit, hs.not_missing]

/-- Under R33 COMMIT moves every pending value, since a register outside P has none (R170). -/
theorem commitPending_current (hs : s.PendingInvariant) (r : Reg) :
    (commitPending s).current r = (s.pending r).getD (s.current r) := by
  obtain ⟨-, -, hcur⟩ := commitPending_spec s r
  rw [hcur]
  cases hdirty : s.isDirty r with
  | true => rfl
  | false => simp [hs.pending_eq_none hdirty]

/-- Everything COMMIT does (R170). -/
theorem commitPending_closesTo (hs : s.PendingInvariant) :
    s.ClosesTo (fun r => (s.pending r).getD (s.current r)) (finish (commitPending s)) :=
  ⟨(commitPending_closed hs).finish, commitPending_current hs, rfl, rfl, rfl, rfl⟩

/-- Everything ABORT does (R172). -/
theorem discardPending_closesTo (hs : s.PendingInvariant) : s.ClosesTo s.current (finish (discardPending s)) :=
  ⟨(discardPending_closed hs).finish, discardPending_current s, rfl, rfl, rfl, rfl⟩

/-- A close command closes the cycle, and the registers outside P keep their current values (R170, R172). -/
theorem exec_close {close : Instr} (hs : s.PendingInvariant) (hclose : close = .commit ∨ close = .abort) :
    ∃ cur t, exec close s = .next t ∧ s.ClosesTo cur t ∧ ∀ r, s.isDirty r = false → cur r = s.current r := by
  obtain rfl | rfl := hclose
  · refine ⟨_, _, exec_commit_of_pendingInvariant hs, commitPending_closesTo hs, fun r hclean => ?_⟩
    simp [hs.pending_eq_none hclean]
  · exact ⟨_, _, rfl, discardPending_closesTo hs, fun _ _ => rfl⟩

/-- Closing a cycle in which nothing is pending, and to the old current values, changes the outputs alone (R173). -/
theorem State.ClosesTo.answersOnly (h : s.ClosesTo s.current t) (hs : s.CycleClosed) :
    AnswersOnly s Output.idle t := by
  obtain ⟨hclosed, hcur, hframe⟩ := h
  refine ⟨fun r => ?_, hframe⟩
  obtain ⟨hdirty, hpend⟩ := hs r
  obtain ⟨hdirty', hpend'⟩ := hclosed r
  exact ⟨hcur r, hpend'.trans hpend.symm, hdirty'.trans hdirty.symm⟩

/-- With an empty P no cycle is open (R13, R33). -/
theorem State.PendingInvariant.closed_of_clean (hs : s.PendingInvariant) (hclean : ∀ r, s.isDirty r = false) :
    s.CycleClosed :=
  fun r => ⟨hclean r, hs.pending_eq_none (hclean r)⟩

end

/-- Settles O50: a close command leaves a closed cycle, and with an empty P the old current values, so only the
outputs can differ. -/
theorem closingTwiceIsClosingOnce : Obligations.ClosingTwiceIsClosingOnce := by
  intro s close hs hclose
  obtain ⟨cur, t, ht, hcloses, hkeeps⟩ := exec_close hs hclose
  have hclosed : t.CycleClosed := hcloses.1
  refine ⟨t, ht, fun r => (hclosed r).1, fun hclean => ?_⟩
  obtain rfl : cur = s.current := funext fun r => hkeeps r (hclean r)
  exact hcloses.answersOnly (hs.closed_of_clean hclean)

/-- Settles O48: under R33 COMMIT raises nothing and closes the cycle to the pending values. -/
theorem commitMakesPendingValuesCurrent : Obligations.CommitMakesPendingValuesCurrent :=
  fun _ hs => ⟨by decide, _, exec_commit_of_pendingInvariant hs, commitPending_closesTo hs⟩

/-- Settles O49: ABORT closes the cycle to the old current values. -/
theorem abortDiscardsPendingValues : Obligations.AbortDiscardsPendingValues :=
  fun _ hs => ⟨by decide, _, rfl, discardPending_closesTo hs⟩

section
variable (s : State)

/-- WIPE stages X in a scalar register (R180). -/
theorem poisonAll_pending_scalar (c : Scalar) : (poisonAll s).pending (.scalar c) = some (.scalar .x) := by
  simp [poisonAll]

/-- WIPE stages eight X lanes in a wide register (R180). -/
theorem poisonAll_pending_wide (w : Wide) :
    (poisonAll s).pending (.wide w) = some (.wide (Vector.replicate 8 .x)) := by
  simp [poisonAll]

end

/-- Settles O55: WIPE stages X in every register and touches no current value. -/
theorem wipeStagesXEverywhere : Obligations.WipeStagesXEverywhere := by
  intro s
  refine ⟨by decide, finish (poisonAll s), rfl, fun r => ?_, poisonAll_pending_scalar s, poisonAll_pending_wide s,
    poisonAll_current s, rfl, rfl, rfl, rfl⟩
  obtain ⟨hdirty, -⟩ := poisonAll_spec s r
  exact hdirty

end Sys2Proof.Machine
end

section
/-! PROOFS. Faults are precise: what reports a code changes nothing but the record and the outputs (60_exceptions.md
R203). -/

namespace Sys2Proof.Machine

/-- Of the six effects of a command only a raise reports a code (R72, R203). -/
theorem Effect.raisesOnly {i : Instr} {s t : State} {c : FaultCode} (h : Effect i s t) (hc : t.out.faultOut = some c) :
    ∃ f : BlockFault, f.code = c ∧ RaisesOnly s f t := by
  have silent (hout : t.out.faultOut = none) : False := by simp [hout] at hc
  cases h with
  | stage r v _ hstage =>
    obtain ⟨-, -, -, -, -, -, -, hout⟩ := hstage
    exact (silent (by rw [hout])).elim
  | answer o noFault hanswer =>
    obtain ⟨-, -, -, -, hout⟩ := hanswer
    exact (silent (by rw [hout, noFault])).elim
  | raise f _ hraise =>
    have ⟨_, _, _, _, hout⟩ := hraise
    exact ⟨f, by simpa [hout] using hc, hraise⟩
  | commit => exact (silent rfl).elim
  | abort => exact (silent rfl).elim
  | wipe => exact (silent rfl).elim

theorem exec_raisesOnly {i : Instr} {s t : State} {c : FaultCode} (h : exec i s = .next t)
    (hc : t.out.faultOut = some c) : ∃ f : BlockFault, f.code = c ∧ RaisesOnly s f t := by
  obtain ⟨t', ht', effect⟩ := exec_effect i s
  obtain rfl : t' = t := by simpa [ht'] using h
  exact effect.raisesOnly hc

/-- A word that does not decode raises too, so a presented word reports a code only by raising (R74, R75, R203). -/
theorem runWord_raisesOnly {cmd : BitVec 32} {s t : State} {c : FaultCode} (h : runWord cmd s = .next t)
    (hc : t.out.faultOut = some c) : ∃ f : BlockFault, f.code = c ∧ RaisesOnly s f t := by
  obtain ⟨i, -, -, effect⟩ | ⟨-, rfl⟩ := runWord_cases h
  · exact effect.raisesOnly hc
  · exact ⟨.illegalCommand cmd, Option.some.inj hc, raise_raisesOnly _ s⟩

/-- Settles O15: a command has one of six effects, of which only the raise reports a code; the step of a presented word
is that of its command, or the raise of ILLEGAL_COMMAND, on the state that has accepted it. -/
theorem faultsAreExact : Obligations.FaultsAreExact := by
  refine ⟨fun _ _ _ _ => exec_raisesOnly, fun s t cmd d rest c hhost hstep hc => ?_⟩
  have hrun : runWord cmd (acceptCommand rest d s) = .next t := by simpa [step, hhost] using hstep
  exact runWord_raisesOnly hrun hc

end Sys2Proof.Machine
end

section
/-! PROOFS. A part of a cycle without COMMIT, and the ABORT that closes it (20_memory.md R61, 70_reset_and_hazards.md
R245). -/

namespace Sys2Proof.Machine

/-- Of the six effects of a command only COMMIT's touches a current value (R61). -/
theorem Effect.current_eq {i : Instr} {s t : State} (h : Effect i s t) (hi : i ≠ .commit) (r : Reg) :
    t.current r = s.current r := by
  cases h with
  | stage r' v _ hstage =>
    obtain ⟨-, -, -, hcur, -⟩ := hstage
    exact hcur r
  | answer o _ hanswer =>
    obtain ⟨hregs, -⟩ := hanswer
    exact (hregs r).1
  | raise f _ hraise =>
    obtain ⟨hregs, -⟩ := hraise
    exact (hregs r).1
  | commit isCommit => exact absurd isCommit hi
  | abort => exact discardPending_current s r
  | wipe => exact poisonAll_current s r

/-- THE INDUCTION OVER A PART OF A CYCLE: what the write-data bus and each of the commands keep, the sequence keeps. -/
theorem runCommands_keeps {P : State → Prop} {cs : List (Instr × Nat)} (hbus : ∀ s d, P s → P { s with wdata := d })
    (hexec : ∀ c ∈ cs, ∀ s t, P s → Effect c.1 s t → P t) {s t : State} (hs : P s)
    (h : runCommands cs s = .next t) : P t := by
  induction cs generalizing s with
  | nil =>
    obtain rfl : s = t := Host.Outcome.next.inj h
    exact hs
  | cons c cs ih =>
    obtain ⟨i, d⟩ := c
    obtain ⟨hi, hcs⟩ := List.forall_mem_cons.mp hexec
    obtain ⟨u, hu, effect⟩ := exec_effect i { s with wdata := d }
    simp only [runCommands, hu] at h
    exact ih hcs (hi _ _ (hbus s d hs) effect) h

/-- `t` is a point of a cycle that began with the current values of `s`: they still stand, and the pending set meets
the invariant of R33, so that ABORT can discard every staging (R245). -/
def State.CycleFrom (s t : State) : Prop := t.PendingInvariant ∧ ∀ r, t.current r = s.current r

section
variable {s t u : State}

theorem State.CycleClosed.cycleFrom (h : s.CycleClosed) : s.CycleFrom s := ⟨h.pendingInvariant, fun _ => rfl⟩

theorem State.CycleFrom.of_wdata (h : s.CycleFrom t) (d : Nat) : s.CycleFrom { t with wdata := d } := h

/-- Every command but COMMIT goes on with the cycle, whether it stages, merges a lane, faults or aborts. -/
theorem State.CycleFrom.effect {i : Instr} (h : s.CycleFrom t) (hi : i ≠ .commit) (effect : Effect i t u) :
    s.CycleFrom u := by
  obtain ⟨hinv, hcur⟩ := h
  exact ⟨effect.pendingInvariant hinv, fun r => (effect.current_eq hi r).trans (hcur r)⟩

theorem runCommands_cycleFrom {cs : List (Instr × Nat)} (hcs : ∀ c ∈ cs, c.1 ≠ .commit) (hs : s.CycleClosed)
    (h : runCommands cs s = .next t) : s.CycleFrom t :=
  runCommands_keeps (fun _ d hu => hu.of_wdata d) (fun c hc _ _ hu => hu.effect (hcs c hc)) hs.cycleFrom h

/-- ABORT, at any point of the cycle, closes it to the current values of its start (R172, R245). -/
theorem State.CycleFrom.abort (h : s.CycleFrom t) :
    ∃ u, exec .abort t = .next u ∧ u.CycleClosed ∧ ∀ r, u.current r = s.current r := by
  obtain ⟨hinv, hcur⟩ := h
  obtain ⟨hclosed, hkeeps, -⟩ := discardPending_closesTo hinv
  exact ⟨_, rfl, hclosed, fun r => (hkeeps r).trans (hcur r)⟩

end

/-- Settles O22: commands other than COMMIT leave a point of the cycle that `s` began, by induction over them, and ABORT
closes it from there. -/
theorem abortReturnsToTheStartOfTheCycle : Obligations.AbortReturnsToTheStartOfTheCycle :=
  fun _ _ _ hclosed hcs hrun => (runCommands_cycleFrom hcs hclosed hrun).abort

end Sys2Proof.Machine
end

section
/-! PROOFS. The decoder and the encoder (30_encoding.md R71 to R76): the round trips, the illegal words, and the lines
of the textual form (R77). -/

namespace Sys2Proof

theorem Op.ofCode_code (op : Op) : Op.ofCode op.code = some op := by
  cases op <;> rfl

theorem Op.code_of_ofCode {c : BitVec 5} {op : Op} (h : Op.ofCode c = some op) : op.code = c := by
  revert c
  cases op <;> decide

theorem Reg.index_le (r : Reg) : r.index ≤ 12 := by
  rcases r with c | w
  · cases c <;> decide
  · cases w <;> decide

theorem Reg.ofIndex_index (r : Reg) : Reg.ofIndex r.index = some r := by
  rcases r with c | w
  · cases c <;> rfl
  · cases w <;> rfl

theorem Reg.index_of_ofIndex {n : Nat} {r : Reg} (h : Reg.ofIndex n = some r) : r.index = n := by
  unfold Reg.ofIndex at h
  split at h <;> cases h <;> rfl

/-- A register's index fits the 5 bits of the reg field (R71). -/
theorem Reg.toNat_indexBits (r : Reg) : (BitVec.ofNat 5 r.index).toNat = r.index := by
  have := r.index_le
  rw [BitVec.toNat_ofNat, Nat.mod_eq_of_lt (by omega)]

section
variable {i : Instr}

theorem Instr.regBits_of_reg {r : Reg} (h : i.reg? = some r) : i.regBits = BitVec.ofNat 5 r.index := by
  simp only [Instr.regBits, h]

/-- A command that names no register is a whole-file command, and its other fields are 0 (R73). -/
theorem Instr.wholeFile_of_reg_none (h : i.reg? = none) :
    i.op.wholeFile? = some i ∧ i.regBits = 0 ∧ i.laneBits = 0 := by
  cases i <;> first | exact ⟨rfl, rfl, rfl⟩ | cases h

theorem Instr.not_wholeFile_of_reg {r : Reg} (h : i.reg? = some r) : i.op.wholeFile? = none := by
  cases i <;> first | rfl | cases h

theorem Instr.laneBits_of_not_takesLane (h : i.op.takesLane = false) : i.laneBits = 0 := by
  cases i <;> first | rfl | cases h

/-- A well-formed command is the row of R73 that its operation, its register and its lane select. -/
theorem Instr.row_of_wellFormed {r : Reg} (hreg : i.reg? = some r) (hwf : i.wellFormed = true) :
    i.op.row? r i.laneBits = some i := by
  cases i <;> cases hreg <;> try rfl
  all_goals
    rcases r with c | w
    · cases c <;> first | rfl | cases hwf
    · cases w <;> first | rfl | cases hwf

end

section
variable {op : Op} {r : Reg} {lane : BitVec 4} {i : Instr}

/-- What the whole-file rows of R73 are. -/
theorem Op.wholeFile?_eq_some (h : op.wholeFile? = some i) : i.op = op ∧ i.reg? = none := by
  cases op <;> cases h <;> exact ⟨rfl, rfl⟩

/-- What a row of R73 that names a register is: a well-formed command with these fields. -/
theorem Op.row?_eq_some (h : op.row? r lane = some i) :
    i.op = op ∧ i.reg? = some r ∧ i.wellFormed = true ∧ (op.takesLane = true → i.laneBits = lane) := by
  cases op
  all_goals
    rcases r with c | w
    · cases c <;> cases h <;> exact ⟨rfl, rfl, rfl, nofun⟩
    · cases w <;> cases h <;> exact ⟨rfl, rfl, rfl, fun e => by cases e <;> rfl⟩

end

section
variable {op : Op} {cmd : BitVec 32} {i : Instr}

/-- A word whose operation, register and lane are those of a well-formed command decodes to it, if its reserved bits
are 0 (R74). -/
theorem decode_of_fields (hop : opField cmd = i.op.code) (hreg : regField cmd = i.regBits)
    (hlane : laneField cmd = i.laneBits) (hres : resField cmd = 0) (hwf : i.wellFormed = true) :
    decode cmd = .ok i := by
  simp only [decode, hop, hreg, hlane, hres, Op.ofCode_code]
  cases hr : i.reg? with
  | none =>
    obtain ⟨hwhole, hregBits, hlaneBits⟩ := Instr.wholeFile_of_reg_none hr
    simp [hwhole, hregBits, hlaneBits]
  | some r =>
    have hstray : ¬ (i.op.takesLane = false ∧ i.laneBits ≠ 0) := fun ⟨hno, hne⟩ =>
      hne (Instr.laneBits_of_not_takesLane hno)
    simp [Instr.not_wholeFile_of_reg hr, Instr.regBits_of_reg hr, Reg.toNat_indexBits, Reg.ofIndex_index,
      Instr.row_of_wellFormed hr hwf, -BitVec.toNat_ofNat]
    simpa using hstray

/-- THE INVERSION OF `decode`: a word that decodes has zeros in its reserved bits and holds the operation, the register
and the lane of a well-formed command (R74). -/
theorem fields_of_decode (h : decode cmd = .ok i) :
    i.op.code = opField cmd ∧ i.regBits = regField cmd ∧ i.laneBits = laneField cmd ∧ resField cmd = 0 ∧
      i.wellFormed = true := by
  unfold decode at h
  split at h
  · cases h
  rename_i hres
  split at h
  · cases h
  rename_i op hop
  replace hop := Op.code_of_ofCode hop
  replace hres : resField cmd = 0 := not_not.mp hres
  split at h
  · rename_i j hwhole
    split at h
    · cases h
    rename_i hzero
    obtain ⟨hreg, hlane⟩ := not_or.mp hzero
    cases h
    obtain ⟨rfl, hnone⟩ := Op.wholeFile?_eq_some hwhole
    obtain ⟨-, hregBits, hlaneBits⟩ := Instr.wholeFile_of_reg_none hnone
    exact ⟨hop, hregBits.trans (not_not.mp hreg).symm, hlaneBits.trans (not_not.mp hlane).symm, hres,
      by simp [Instr.wellFormed, hnone]⟩
  · split at h
    · cases h
    rename_i r hr
    split at h
    · cases h
    rename_i j hrow
    split at h
    · cases h
    rename_i hstray
    cases h
    obtain ⟨rfl, hsome, hwf, htakes⟩ := Op.row?_eq_some hrow
    refine ⟨hop, ?_, ?_, hres, hwf⟩
    · rw [Instr.regBits_of_reg hsome, Reg.index_of_ofIndex hr, BitVec.ofNat_toNat, BitVec.setWidth_eq]
    · cases htl : i.op.takesLane with
      | true => exact htakes htl
      | false =>
        rw [Instr.laneBits_of_not_takesLane htl]
        exact (not_not.mp fun hne => hstray ⟨htl, hne⟩).symm

end

section
variable (cmd : BitVec 32)

theorem toNat_opField : (opField cmd).toNat = cmd.toNat % 32 := by
  simp [opField]

theorem toNat_regField : (regField cmd).toNat = cmd.toNat / 32 % 32 := by
  simp [regField, Nat.shiftRight_eq_div_pow]

theorem toNat_laneField : (laneField cmd).toNat = cmd.toNat / 1024 % 16 := by
  simp [laneField, Nat.shiftRight_eq_div_pow]

theorem toNat_resField : (resField cmd).toNat = cmd.toNat / 16384 := by
  have := cmd.isLt
  simp only [resField, BitVec.extractLsb'_toNat, Nat.shiftRight_eq_div_pow]
  omega

end

/-- The four fields of R71 are the whole word. -/
theorem eq_of_fields {v w : BitVec 32} (hop : opField v = opField w) (hreg : regField v = regField w)
    (hlane : laneField v = laneField w) (hres : resField v = resField w) : v = w := by
  replace hop := congrArg BitVec.toNat hop
  replace hreg := congrArg BitVec.toNat hreg
  replace hlane := congrArg BitVec.toNat hlane
  replace hres := congrArg BitVec.toNat hres
  simp only [toNat_opField, toNat_regField, toNat_laneField, toNat_resField] at hop hreg hlane hres
  apply BitVec.eq_of_toNat_eq
  omega

/-- Settles O1: the fields of the encoded word are those of the command. -/
theorem decodeOfEncodeIsTheCommand : Obligations.DecodeOfEncodeIsTheCommand := by
  intro i hwf
  obtain ⟨hop, hreg, hlane, hres⟩ := Laws.EncodedFields.of_encode i
  exact decode_of_fields hop hreg hlane hres hwf

/-- Settles O2: the command holds the word's fields, and with zeros in the reserved bits they are the whole word. -/
theorem encodeOfDecodeIsTheWord : Obligations.EncodeOfDecodeIsTheWord := by
  intro cmd i h
  obtain ⟨hop, hreg, hlane, hres, hwf⟩ := fields_of_decode h
  obtain ⟨hop', hreg', hlane', hres'⟩ := Laws.EncodedFields.of_encode i
  exact ⟨eq_of_fields (hop'.trans hop) (hreg'.trans hreg) (hlane'.trans hlane) (hres'.trans hres.symm), hwf⟩

/-- Settles O3: each word is decoded. -/
theorem decodesTheWordsOfTheSpec : Obligations.DecodesTheWordsOfTheSpec := by
  unfold Obligations.DecodesTheWordsOfTheSpec
  decide

/-- Settles O6: each line is assembled. -/
theorem syntaxLinesGiveTheirWords : Obligations.SyntaxLinesGiveTheirWords := by
  refine ⟨?_, ?_, ?_, ?_, ?_, ?_, ?_⟩ <;> decide

end Sys2Proof
end

section
/-! PROOFS. One step of the block: the command it runs, reset, and the fault record (30_encoding.md R70, R75,
60_exceptions.md R202 to R204, 70_reset_and_hazards.md R230). -/

namespace Sys2Proof.Machine

section
variable {i : Instr} {s t : State} {cmd : BitVec 32}

/-- A word that decodes runs its command (R74). -/
theorem runWord_of_decode (h : decode cmd = .ok i) (s : State) : runWord cmd s = exec i s := by
  simp only [runWord, h]

/-- A word that does not decode raises ILLEGAL_COMMAND (R75). -/
theorem runWord_of_error {e : DecodeError} (h : decode cmd = .error e) (s : State) :
    runWord cmd s = .next (raise (.illegalCommand cmd) s) := by
  simp only [runWord, h]

/-- A presented word leaves the queue, and its write data are on the bus when it runs (R70). -/
theorem step_of_command {d : Nat} {rest : List HostEvent} (h : s.host = .command cmd d :: rest) :
    step s = runWord cmd { s with host := rest, wdata := d } := by
  simp only [step, h, acceptCommand]

theorem step_of_reset {rest : List HostEvent} (h : s.host = .reset :: rest) : step s = .next (resetBlock rest) := by
  simp only [step, h]

/-- A command whose register the kind table does not list for it raises ILLEGAL_COMMAND with its own word (R35). -/
theorem exec_of_not_wellFormed (h : i.wellFormed = false) (s : State) : exec i s = .next (raiseIllegal i s) := by
  cases i with
  | readLane r k =>
    cases r with
    | scalar c => rfl
    | wide w => cases w <;> cases h
  | writeLane r k =>
    cases r with
    | scalar c => rfl
    | wide w => cases w <;> cases h
  | increment r =>
    cases r with
    | scalar c => cases c <;> first | rfl | cases h
    | wide w => rfl
  | _ => cases h

end

/-- The five kinds of illegal word of R75, by the numbers in the fields of R71. -/
def IllegalFields (op reg lane res : Nat) : Prop :=
  res ≠ 0 ∨
  (op = 0 ∨ (0x0C ≤ op ∧ op ≤ 0x0F) ∨ 0x15 ≤ op) ∨
  ((0x10 ≤ op ∧ op ≤ 0x14) ∧ (reg ≠ 0 ∨ lane ≠ 0)) ∨
  ((1 ≤ op ∧ op ≤ 0x0B) ∧
    (12 < reg ∨ ((op = 4 ∨ op = 5) ∧ reg ≠ 3 ∧ reg ≠ 4) ∨ (op = 6 ∧ (reg < 5 ∨ 9 < reg)) ∨
      (op = 7 ∧ reg ≠ 8 ∧ reg ≠ 9) ∨ ((op = 8 ∨ op = 9 ∨ op = 10) ∧ reg ≠ 2) ∨
      (op = 11 ∧ reg ≠ 3 ∧ reg ≠ 4 ∧ reg ≠ 10 ∧ reg ≠ 11))) ∨
  ((1 ≤ op ∧ op ≤ 0x0B ∧ op ≠ 4 ∧ op ≠ 5) ∧ lane ≠ 0)

/-- The fields of a well-formed command are of none of the five kinds: a command without a free field by its three
numbers, one with a register by the indices the kind table lets it have (R35). -/
theorem not_illegalFields {i : Instr} (hwf : i.wellFormed = true) :
    ¬ IllegalFields i.op.code.toNat i.regBits.toNat i.laneBits.toNat 0 := by
  have plain (op : Nat) (hop : 1 ≤ op ∧ op ≤ 3) (r : Reg) :
      ¬ IllegalFields op (BitVec.ofNat 5 r.index).toNat 0 0 := by
    have := r.index_le
    rw [r.toNat_indexBits]
    unfold IllegalFields
    omega
  have laned (op : Nat) (hop : op = 4 ∨ op = 5) (w : Wide) (k : BitVec 4) :
      ¬ IllegalFields op (BitVec.ofNat 5 (Reg.wide w).index).toNat k.toNat 0 := by
    have : (Reg.wide w).index = 3 ∨ (Reg.wide w).index = 4 := by cases w <;> decide
    rw [Reg.toNat_indexBits]
    unfold IllegalFields
    omega
  cases i with
  | read r => exact plain 1 (by decide) r
  | readPending r => exact plain 2 (by decide) r
  | write r => exact plain 3 (by decide) r
  | readLane r k =>
    cases r with
    | scalar c => cases c <;> cases hwf
    | wide w => exact laned 4 (by decide) w k
  | writeLane r k =>
    cases r with
    | scalar c => cases c <;> cases hwf
    | wide w => exact laned 5 (by decide) w k
  | increment r =>
    unfold IllegalFields
    cases r with
    | scalar c => cases c <;> first | decide | cases hwf
    | wide w => cases w <;> cases hwf
  | _ => unfold IllegalFields; decide

/-- A word of one of the five kinds does not decode (R74, R75). -/
theorem decode_of_illegalFields {cmd : BitVec 32}
    (h : IllegalFields (cmd.toNat % 32) (cmd.toNat / 32 % 32) (cmd.toNat / 1024 % 16) (cmd.toNat / 16384)) :
    ∃ e, decode cmd = .error e := by
  cases hd : decode cmd with
  | error e => exact ⟨e, rfl⟩
  | ok i =>
    obtain ⟨hop, hreg, hlane, hres, hwf⟩ := fields_of_decode hd
    rw [← toNat_opField, ← toNat_regField, ← toNat_laneField, ← toNat_resField, ← hop, ← hreg, ← hlane, hres] at h
    exact absurd h (not_illegalFields hwf)

/-- Settles O4: such a word does not decode, and the step raises ILLEGAL_COMMAND. -/
theorem illegalWordsRaiseIllegalCommand : Obligations.IllegalWordsRaiseIllegalCommand := by
  intro s cmd d rest hhost hfields
  obtain ⟨e, he⟩ := decode_of_illegalFields hfields
  exact ⟨_, (step_of_command hhost).trans (runWord_of_error he _), raise_raisesOnly _ _⟩

/-- Settles O5: the raise carries the command's word. -/
theorem illFormedCommandsRaiseIllegalCommand : Obligations.IllFormedCommandsRaiseIllegalCommand :=
  fun _ s hwf => ⟨_, exec_of_not_wellFormed hwf s, raise_raisesOnly _ s⟩

/-- Settles O7: the step runs the word, and the word runs its command. -/
theorem stepRunsTheDecodedCommand : Obligations.StepRunsTheDecodedCommand :=
  fun _ _ _ _ _ hhost hd => (step_of_command hhost).trans (runWord_of_decode hd _)

/-- Settles O8: `step` looks at the queue first. -/
theorem stepWithoutACommandStops : Obligations.StepWithoutACommandStops := by
  intro s hhost
  simp only [step, hhost]

/-- After the reset input every scalar register is Known 0 (R43, R230). -/
theorem resetBlock_current_scalar (rest : List HostEvent) (c : Scalar) :
    (resetBlock rest).current (.scalar c) = .scalar (.known 0) := by
  cases c <;> rfl

/-- After the reset input every lane of a wide register is Known 0 (R43, R230). -/
theorem resetBlock_current_wide (rest : List HostEvent) (w : Wide) :
    (resetBlock rest).current (.wide w) = .wide (Vector.replicate 8 (.known 0)) := by
  cases w <;> rfl

/-- Settles O9: the step on the reset input is `resetBlock`. -/
theorem resetInputClearsTheBlock : Obligations.ResetInputClearsTheBlock := by
  intro s rest hhost
  exact ⟨_, step_of_reset hhost, rfl, rfl, fun r => (resetBlock_closed rest r).symm, resetBlock_current_scalar rest,
    resetBlock_current_wide rest⟩

/-- Settles O10: the reset state is what the reset input leaves with an empty queue. -/
theorem resetStateIsAllZeroAndClean : Obligations.ResetStateIsAllZeroAndClean :=
  ⟨resetBlock_current_scalar [], resetBlock_current_wide [], resetBlock_closed [], rfl⟩

/-- Settles O12: in the reset state no cycle is open. -/
theorem resetMeetsThePendingInvariant : Obligations.ResetMeetsThePendingInvariant :=
  (resetBlock_closed []).pendingInvariant

/-- Settles O14, by the inversion of `exec`. -/
theorem everyCommandAnswersANextState : Obligations.EveryCommandAnswersANextState := by
  intro i s
  obtain ⟨t, ht, -⟩ := exec_effect i s
  exact ⟨t, ht⟩

/-- Settles O17: the six numbers. -/
theorem faultCodesAreNumbered : Obligations.FaultCodesAreNumbered :=
  fun _ _ _ _ _ => ⟨rfl, rfl, rfl, rfl, rfl, rfl⟩

/-- Only PENDING_INCONSISTENT has its code. -/
theorem BlockFault.code_eq_pendingInconsistent {f : BlockFault} (h : f.code = .pendingInconsistent) :
    f = .pendingInconsistent := by
  cases f <;> first | rfl | cases h

section
variable {s t : State}

/-- A command either reports no fault and keeps the record, or it raises; it raises PENDING_INCONSISTENT only where R33
is violated (R170, R202). -/
theorem Effect.quiet_or_raisesOnly {i : Instr} (h : Effect i s t) :
    (t.out.faultOut = none ∧ t.fault = s.fault) ∨
    ∃ f, (f = .pendingInconsistent → s.pendingMissing = true) ∧ RaisesOnly s f t := by
  cases h with
  | stage r v _ hstage =>
    obtain ⟨-, -, -, -, hfault, -, -, hout⟩ := hstage
    exact .inl ⟨by rw [hout], hfault⟩
  | answer o noFault hanswer =>
    obtain ⟨-, hfault, -, -, hout⟩ := hanswer
    exact .inl ⟨by rw [hout, noFault], hfault⟩
  | raise f cause hraise => exact .inr ⟨f, fun hf => (cause hf).2, hraise⟩
  | commit => exact .inl ⟨rfl, rfl⟩
  | abort => exact .inl ⟨rfl, rfl⟩
  | wipe => exact .inl ⟨rfl, rfl⟩

/-- So does a presented word, which raises ILLEGAL_COMMAND when it does not decode (R75). -/
theorem runWord_quiet_or_raisesOnly {cmd : BitVec 32} (h : runWord cmd s = .next t) :
    (t.out.faultOut = none ∧ t.fault = s.fault) ∨
    ∃ f, (f = .pendingInconsistent → s.pendingMissing = true) ∧ RaisesOnly s f t := by
  obtain ⟨i, -, -, effect⟩ | ⟨-, rfl⟩ := runWord_cases h
  · exact effect.quiet_or_raisesOnly
  · exact .inr ⟨.illegalCommand cmd, nofun, raise_raisesOnly _ s⟩

end

/-- Settles O13: under R33 a presented word raises another fault or none. -/
theorem pendingInconsistencyIsUnreachable : Obligations.PendingInconsistencyIsUnreachable := by
  intro s t hs hrecord hstep
  obtain ⟨rest, -, rfl⟩ | ⟨cmd, wdata, rest, -, hrun⟩ := step_cases hstep
  · exact ⟨nofun, nofun⟩
  obtain ⟨hout, hfault⟩ | ⟨f, cause, -, hfault, -, -, hout⟩ := runWord_quiet_or_raisesOnly hrun
  · exact ⟨by simp [hout], by rw [hfault]; exact hrecord⟩
  have hf : f ≠ .pendingInconsistent := fun e =>
    absurd (cause e) (by simp [(hs.acceptCommand rest wdata).not_missing])
  refine ⟨fun e => hf (BlockFault.code_eq_pendingInconsistent (by simpa [hout] using e)), ?_⟩
  rw [hfault]
  change some (s.fault.getD f) ≠ _
  cases hrec : s.fault with
  | none => simpa using hf
  | some first => simpa [hrec] using hrecord

/-- Settles O16: a presented word keeps the record, or raises a fault that the record takes only when it is empty. -/
theorem theFirstFaultIsKept : Obligations.TheFirstFaultIsKept := by
  intro s t hnoReset hstep
  obtain ⟨rest, hreset, -⟩ | ⟨cmd, wdata, rest, -, hrun⟩ := step_cases hstep
  · exact absurd hreset (hnoReset rest)
  obtain ⟨hout, hfault⟩ | ⟨f, -, -, hfault, -, -, hout⟩ := runWord_quiet_or_raisesOnly hrun
  · replace hfault : t.fault = s.fault := hfault
    exact ⟨fun f hf => hfault.trans hf, fun hnone => .inl ⟨hout, hfault.trans hnone⟩⟩
  · replace hfault : t.fault = some (s.fault.getD f) := hfault
    exact ⟨fun first hfirst => by simp [hfault, hfirst], fun hnone => .inr ⟨f, by simp [hfault, hnone], by rw [hout]⟩⟩

/-- Settles O18, by induction over the commands: each of them keeps the current values. -/
theorem onlyCommitChangesCurrentValues : Obligations.OnlyCommitChangesCurrentValues :=
  fun _ s _ hcs hrun => runCommands_keeps (P := fun t => ∀ r, t.current r = s.current r) (fun _ _ hu => hu)
    (fun c hc _ _ hu effect r => (effect.current_eq (hcs c hc) r).trans (hu r)) (fun _ => rfl) hrun

end Sys2Proof.Machine
end

section
/-! PROOFS. WRITE and WRITE_LANE, and a lane written in a cycle that is committed (40_register_access.md R104, R108,
R110, R111). -/

namespace Sys2Proof.Machine

section
variable {s : State}

/-- WRITE of data that do not fit the register raises RANGE_VALUE (R104). -/
theorem exec_write_of_ge {r : Reg} (h : 2 ^ regWidth r ≤ s.wdata) :
    exec (.write r) s = .next (raise (.rangeValue r s.wdata) s) := by
  simp [exec, execWrite, h]

theorem exec_write_scalar_of_lt (c : Scalar) (h : s.wdata < 2 ^ 32) :
    exec (.write (.scalar c)) s = .next (finish (stageScalar c (.known (BitVec.ofNat 32 s.wdata)) s)) := by
  simp only [exec, execWrite, regWidth, ge_iff_le, if_neg (Nat.not_le.mpr h)]

theorem exec_write_wide_of_lt (w : Wide) (h : s.wdata < 2 ^ 256) :
    exec (.write (.wide w)) s = .next (finish (stageWide w (lanesOfNat s.wdata) s)) := by
  simp only [exec, execWrite, regWidth, ge_iff_le, if_neg (Nat.not_le.mpr h)]

/-- Lane k of a number is its bits 32k+31 to 32k (R52, R104). -/
theorem getElem_lanesOfNat (d : Nat) (k : Fin 8) :
    (lanesOfNat d)[k] = .known (BitVec.ofNat 32 (d / 2 ^ (32 * k.val))) := by
  simp [lanesOfNat]

theorem extractLsb'_ofNat_lane (d : Nat) (k : Fin 8) :
    (BitVec.ofNat 256 d).extractLsb' (32 * k) 32 = BitVec.ofNat 32 (d / 2 ^ (32 * k.val)) := by
  apply BitVec.eq_of_getLsbD_eq
  intro j hj
  have : 32 * k.val + j < 256 := by omega
  simp only [BitVec.getLsbD_extractLsb', BitVec.getLsbD_ofNat, Nat.testBit_div_two_pow, hj, this, Nat.add_comm j,
    decide_true, Bool.true_and]

variable (w : Wide) {k : BitVec 4}

/-- WRITE_LANE of a lane field of 8 to 15 raises RANGE_LANE_INDEX, whatever the data are (R108, R205). -/
theorem exec_writeLane_of_lane_ge (hk : 8 ≤ k.toNat) :
    exec (.writeLane (.wide w) k) s = .next (raise (.rangeLaneIndex (.wide w) k.toNat) s) := by
  simp [exec, execWriteLane, laneOfField, Nat.not_lt.mpr hk]

/-- WRITE_LANE of a lane that exists raises RANGE_VALUE when the data do not fit the lane (R108). -/
theorem exec_writeLane_of_wdata_ge (hk : k.toNat < 8) (hd : 2 ^ 32 ≤ s.wdata) :
    exec (.writeLane (.wide w) k) s = .next (raise (.rangeValue (.wide w) s.wdata) s) := by
  simp only [exec, execWriteLane, laneOfField, dif_pos hk, ge_iff_le, if_pos hd]

/-- Otherwise it stages the merge base with that one lane replaced (R108). -/
theorem exec_writeLane_of_lt (hk : k.toNat < 8) (hd : s.wdata < 2 ^ 32) :
    exec (.writeLane (.wide w) k) s = .next (finish (stageWide w
      (((s.pend.wide w).getD (s.cur.wide w)).set k.toNat (.known (BitVec.ofNat 32 s.wdata))) s)) := by
  simp only [exec, execWriteLane, laneOfField, dif_pos hk, ge_iff_le, if_neg (Nat.not_le.mpr hd), mergeLane,
    mergeBase_eq]

end

/-- Settles O25: both sides of the range check, for a scalar and for a wide register. -/
theorem writeStagesTheWholeValue : Obligations.WriteStagesTheWholeValue := by
  refine ⟨fun c s => ⟨fun hd => ?_, fun hd => ?_⟩, fun w s => ⟨fun hd => ?_, fun hd => ?_⟩⟩
  · exact ⟨_, exec_write_scalar_of_lt c hd, stageScalar_stagesOnly c _ s⟩
  · exact ⟨_, exec_write_of_ge hd, raise_raisesOnly _ s⟩
  · refine ⟨_, _, exec_write_wide_of_lt w hd, stageWide_stagesOnly w _ s, fun k => ?_⟩
    rw [getElem_lanesOfNat, extractLsb'_ofNat_lane]
  · exact ⟨_, exec_write_of_ge hd, raise_raisesOnly _ s⟩

/-- Settles O27: the two checks in their order, and the merge. -/
theorem writeLaneMergesOneLane : Obligations.WriteLaneMergesOneLane := by
  refine fun w k s => ⟨fun hk hd => ?_, fun hk hd => ?_, fun hk => ?_⟩
  · refine ⟨_, _, exec_writeLane_of_lt w hk hd, stageWide_stagesOnly w _ s, fun j => ?_⟩
    simp only [Fin.getElem_fin, Vector.getElem_set, eq_comm (a := k.toNat)]
  · exact ⟨_, exec_writeLane_of_wdata_ge w hk hd, raise_raisesOnly _ s⟩
  · exact ⟨_, exec_writeLane_of_lane_ge w hk, raise_raisesOnly _ s⟩

section
variable {s : State} {w : Wide} {k : BitVec 4} {d : Nat}

theorem runCommands_cons {i : Instr} {t : State} (h : exec i { s with wdata := d } = .next t)
    (rest : List (Instr × Nat)) : runCommands ((i, d) :: rest) s = runCommands rest t := by
  simp only [runCommands, h]

theorem State.PendingInvariant.of_wdata (h : s.PendingInvariant) (d : Nat) :
    State.PendingInvariant { s with wdata := d } := h

/-- A COMMIT at the end of a sequence makes every pending value current (R170). -/
theorem runCommands_commit (h : s.PendingInvariant) :
    ∃ t, runCommands [(.commit, d)] s = .next t ∧ t.CycleClosed ∧
      ∀ r, t.current r = (s.pending r).getD (s.current r) := by
  obtain ⟨hclosed, hcur, -⟩ := commitPending_closesTo (h.of_wdata d)
  exact ⟨_, runCommands_cons (exec_commit_of_pendingInvariant (h.of_wdata d)) [], hclosed, hcur⟩

/-- A COMMIT right after a staging makes the staged lanes current (R34, R170). -/
theorem runCommands_commit_of_staged {l : Lanes} {u : State} (h : StagesOnly s (.wide w) (.wide l) u)
    (hs : s.PendingInvariant) :
    ∃ t, runCommands [(.commit, d)] u = .next t ∧ t.cur.wide w = l := by
  obtain ⟨t, ht, -, hcur⟩ := runCommands_commit (d := d) (h.pendingInvariant hs)
  obtain ⟨hpend, -⟩ := h
  exact ⟨t, ht, by simpa [hpend] using hcur (.wide w)⟩

/-- One lane written and committed: that lane of the merge base is replaced (R108, R170). -/
theorem runCommands_writeLane_commit (hs : s.PendingInvariant) (hk : k.toNat < 8) (hd : d < 2 ^ 32) :
    ∃ t, runCommands [(.writeLane (.wide w) k, d), (.commit, 0)] s = .next t ∧
      t.cur.wide w = ((s.pend.wide w).getD (s.cur.wide w)).set k.toNat (.known (BitVec.ofNat 32 d)) := by
  rw [runCommands_cons (exec_writeLane_of_lt (s := { s with wdata := d }) w hk hd)]
  exact runCommands_commit_of_staged (stageWide_stagesOnly w _ { s with wdata := d }) (hs.of_wdata d)

end

/-- Settles O28: the current value is the merge base, and one lane of it is set. -/
theorem laneWritesAreIndependent : Obligations.LaneWritesAreIndependent := by
  intro w k j d s hs hnone hk hne hd
  obtain ⟨t, ht, hcur⟩ := runCommands_writeLane_commit (w := w) hs hk hd
  rw [hnone, Option.getD_none] at hcur
  exact ⟨t, ht, by simp [hcur, hne.symm], fun _ => by simp [hcur]⟩

/-- Settles O29: the merge base of the second write is what the first has staged, and the same lane of it is set. -/
theorem repeatedLaneWriteKeepsTheSecond : Obligations.RepeatedLaneWriteKeepsTheSecond := by
  intro w k a b s hs hnone hk ha hb
  have hstage := stageWide_stagesOnly w
    (((s.pend.wide w).getD (s.cur.wide w)).set k.toNat (.known (BitVec.ofNat 32 a))) { s with wdata := a }
  obtain ⟨t, ht, hcur⟩ :=
    runCommands_writeLane_commit (w := w) (hstage.pendingInvariant (hs.of_wdata a)) hk hb
  refine ⟨t, (runCommands_cons (exec_writeLane_of_lt (s := { s with wdata := a }) w hk ha) _).trans ht, fun j => ?_⟩
  simp only [hcur, hnone, finish_pend, stageWide_pend, File.wide_setWide_same, Option.getD_some, Option.getD_none,
    Fin.getElem_fin, Vector.getElem_set, eq_comm (a := k.toNat)]
  split <;> rfl

end Sys2Proof.Machine
end

section
/-! PROOFS. Saturated counters, the derived addresses, and the stride registers M and J2 over one and many cycles
(41_counters.md R121 to R131). -/

namespace Sys2Proof.Machine

/-- Settles O31: the increment raises, so the cycle is still closed and either close keeps every current value. -/
theorem saturatedCounterKeepsItsValue : Obligations.SaturatedCounterKeepsItsValue := by
  intro c s hc hclosed hval
  refine ⟨_, (exec_increment_counter s hc).trans (congrArg _ (incrementCounter_of_saturated hval (by decide))), rfl,
    fun close hclose => ?_⟩
  have hinv := (raise_raisesOnly (.overflow (.scalar c) 0xFFFFFFFF) s).pendingInvariant hclosed.pendingInvariant
  obtain ⟨cur, t, ht, ⟨-, hcur, -⟩, hkeeps⟩ := exec_close hinv hclose
  obtain ⟨hclean, -⟩ := hclosed (.scalar c)
  exact ⟨t, ht, by simpa [hval] using (hcur (.scalar c)).trans (hkeeps _ hclean)⟩

/-- Reversing a byte twice gives the byte (R122). -/
theorem rev8_rev8 (b : BitVec 8) : rev8 (rev8 b) = b := by
  apply BitVec.eq_of_getLsbD_eq
  intro j hj
  rw [getLsbD_rev8 _ hj, getLsbD_rev8 _ (by omega), show 7 - (7 - j) = j by omega]

/-- Settles O32: the bits as they are reversed, from which the rest follows. -/
theorem bitReversalReversesTheByte : Obligations.BitReversalReversesTheByte := by
  refine ⟨fun b j => ?_, rev8_rev8, Function.Involutive.bijective rev8_rev8, by decide⟩
  rw [getLsbD_rev8 b j.isLt]

/-- The offset address as a number: the reversed byte and the stride are added, then cut to 8 bits (R126). -/
theorem offsetAddress_eq (c m : Word) :
    offsetAddress c m = BitVec.ofNat 32 (((rev8 (c.extractLsb' 0 8)).toNat + m.toNat) % 256) :=
  congrArg _ (Nat.and_two_pow_sub_one_eq_mod _ 8)

/-- Settles O34: with J and M Known the offset address, and an X operand gives X. -/
theorem offsetAddressAddsTheStride : Obligations.OffsetAddressAddsTheStride := by
  intro s
  refine ⟨by decide, _, rfl, ?_⟩
  have hstage (a : Val) := stageScalar_stagesOnly .da1 a s
  cases s.cur.scalar .j with
  | x => exact hstage .x
  | known c =>
    cases s.cur.scalar .m with
    | x => exact hstage .x
    | known m =>
      refine ⟨rev8 (c.extractLsb' 0 8), fun j hj => ?_, ?_⟩
      · rw [getLsbD_rev8 _ hj]
        simp [show 7 - j < 8 by omega]
      · rw [← offsetAddress_eq]
        exact hstage _

/-- Settles O35: the fields are the quotient and the remainder by 8. -/
theorem derivedFieldsSplitTheValue : Obligations.DerivedFieldsSplitTheValue := by
  intro v
  have hlane : laneSelect v = v.toNat % 8 := Nat.and_two_pow_sub_one_eq_mod v.toNat 3
  have hreg : registerSelect v = v.toNat / 8 := Nat.shiftRight_eq_div_pow v.toNat 3
  omega

/-- Settles O37: the stride update of M with the two strides exchanged. -/
theorem updateJ2ShiftsTheOtherWay : Obligations.UpdateJ2ShiftsTheOtherWay := by
  intro s
  refine ⟨by decide, _, rfl, ?_⟩
  have hstage (a : Val) := stageScalar_stagesOnly .j2 a s
  cases s.cur.scalar .j2 with
  | x => exact hstage .x
  | known v =>
    cases s.cur.scalar .mode with
    | x => exact hstage .x
    | known f =>
      refine ⟨fun hodd => ?_, fun heven => ?_⟩
      · rw [strideValue_of_odd _ _ hodd, strideShrink_eq]
        exact hstage _
      · rw [strideValue_of_even _ _ heven, strideGrow_eq]
        exact hstage _

/-- One cycle of the stride schedule (R131). -/
def strideCycle : List (Instr × Nat) := [(.updateM, 0), (.updateJ2, 0), (.commit, 0)]

/-- A point between two cycles of the schedule: no cycle is open, the mode flag is set, and the strides are Known. -/
def State.StridesAt (s : State) (f m j2 : Word) : Prop :=
  s.CycleClosed ∧ s.cur.scalar .mode = .known f ∧ s.cur.scalar .m = .known m ∧ s.cur.scalar .j2 = .known j2

section
variable {s : State} {f m j2 : Word}

theorem runCommands_append (cs ds : List (Instr × Nat)) {s t : State} (h : runCommands cs s = .next t) :
    runCommands (cs ++ ds) s = runCommands ds t := by
  induction cs generalizing s with
  | nil =>
    obtain rfl : s = t := Host.Outcome.next.inj h
    rfl
  | cons c cs ih =>
    obtain ⟨i, d⟩ := c
    obtain ⟨u, hu, -⟩ := exec_effect i { s with wdata := d }
    rw [runCommands_cons hu] at h
    rw [List.cons_append, runCommands_cons hu]
    exact ih h

theorem exec_updateM_of_odd (hm : s.cur.scalar .m = .known m) (hmode : s.cur.scalar .mode = .known f)
    (hf : f.toNat % 2 = 1) :
    ∃ t, exec .updateM s = .next t ∧ StagesOnly s (.scalar .m) (.scalar (.known (strideGrow m))) t := by
  refine ⟨_, rfl, ?_⟩
  rw [hm, hmode, strideValue_of_odd _ _ hf]
  exact stageScalar_stagesOnly .m _ s

theorem exec_updateJ2_of_odd (hj2 : s.cur.scalar .j2 = .known j2) (hmode : s.cur.scalar .mode = .known f)
    (hf : f.toNat % 2 = 1) :
    ∃ t, exec .updateJ2 s = .next t ∧ StagesOnly s (.scalar .j2) (.scalar (.known (strideShrink j2))) t := by
  refine ⟨_, rfl, ?_⟩
  rw [hj2, hmode, strideValue_of_odd _ _ hf]
  exact stageScalar_stagesOnly .j2 _ s

/-- Two stagings in different registers and a COMMIT, from a closed cycle: the two registers take the staged values,
and every other register keeps its value (R34, R170). -/
theorem runCommands_commit_of_two_stagings {t u : State} {r r' : Reg} {v v' : RegValue} {d d' : Nat}
    (hs : s.CycleClosed) (h : StagesOnly s r v t) (h' : StagesOnly { t with wdata := d } r' v' u) (hne : r ≠ r') :
    ∃ w, runCommands [(.commit, d')] u = .next w ∧ w.CycleClosed ∧ w.current r = v ∧ w.current r' = v' ∧
      ∀ x, x ≠ r → x ≠ r' → w.current x = s.current x := by
  have hinv := h'.pendingInvariant ((h.pendingInvariant hs.pendingInvariant).of_wdata d)
  obtain ⟨w, hw, hclosed, hcur⟩ := runCommands_commit (d := d') hinv
  obtain ⟨hpend, -, hothers, hkeep, -⟩ := h
  obtain ⟨hpend', -, hothers', hkeep', -⟩ := h'
  have hpendOther {x : Reg} (hx : x ≠ r') : u.pending x = t.pending x := (hothers' x hx).1
  refine ⟨w, hw, hclosed, ?_, ?_, fun x hx hx' => ?_⟩
  · rw [hcur, hpendOther hne, hpend, Option.getD_some]
  · rw [hcur, hpend', Option.getD_some]
  · rw [hcur, hpendOther hx', (hothers x hx).1, (hs x).2, Option.getD_none]
    exact (hkeep' x).trans (hkeep x)

/-- One cycle takes both strides one place on: UPDATE on J2 reads current values, which UPDATE on M has kept (R61,
R128, R130). -/
theorem runCommands_strideCycle (h : s.StridesAt f m j2) (hf : f.toNat % 2 = 1) :
    ∃ t, runCommands strideCycle s = .next t ∧ t.StridesAt f (strideGrow m) (strideShrink j2) := by
  obtain ⟨hclosed, hmode, hm, hj2⟩ := h
  obtain ⟨u, hu, hstageM⟩ := exec_updateM_of_odd (s := { s with wdata := 0 }) hm hmode hf
  have hkeep (c : Scalar) : u.cur.scalar c = s.cur.scalar c := by
    obtain ⟨-, -, -, hcur, -⟩ := hstageM
    simpa using hcur (.scalar c)
  obtain ⟨v, hv, hstageJ2⟩ :=
    exec_updateJ2_of_odd (s := { u with wdata := 0 }) ((hkeep _).trans hj2) ((hkeep _).trans hmode) hf
  obtain ⟨t, ht, hclosed', hm', hj2', hothers⟩ :=
    runCommands_commit_of_two_stagings (d' := 0) (s := { s with wdata := 0 }) hclosed hstageM hstageJ2 (by decide)
  refine ⟨t, ?_, hclosed', ?_, by simpa using hm', by simpa using hj2'⟩
  · rw [strideCycle, runCommands_cons hu, runCommands_cons hv, ht]
  · simpa [hmode] using hothers (.scalar .mode) (by decide) (by decide)

/-- n cycles take both strides n places on. -/
theorem runCommands_strideCycles (h : s.StridesAt f m j2) (hf : f.toNat % 2 = 1) (n : Nat) :
    ∃ t, runCommands (List.replicate n strideCycle).flatten s = .next t ∧
      t.StridesAt f (strideGrow^[n] m) (strideShrink^[n] j2) := by
  induction n generalizing s m j2 with
  | zero => exact ⟨s, rfl, h⟩
  | succ n ih =>
    obtain ⟨t, ht, hat⟩ := runCommands_strideCycle h hf
    obtain ⟨u, hu, hat'⟩ := ih hat
    exact ⟨u, (runCommands_append strideCycle _ ht).trans hu, hat'⟩

end

/-- The growing stride from 1: a power of 2 up to 0x80, and then 0 for ever (R131). -/
theorem strideGrow_iterate_one (n : Nat) :
    strideGrow^[n + 1] 1 = if n < 7 then BitVec.ofNat 32 (2 ^ (n + 1)) else 0 := by
  induction n with
  | zero => decide
  | succ n ih =>
    rw [Function.iterate_succ_apply', ih]
    by_cases hn : n < 7
    · interval_cases n <;> decide
    · rw [if_neg hn, if_neg (by omega)]
      decide

/-- The shrinking stride from 1 is 0 at once. -/
theorem strideShrink_iterate_one (n : Nat) : strideShrink^[n + 1] 1 = 0 := by
  induction n with
  | zero => decide
  | succ n ih =>
    rw [Function.iterate_succ_apply', ih]
    decide

/-- Settles O38, by induction over the cycles, and then over the places the two strides have moved. -/
theorem strideScheduleRunsToZero : Obligations.StrideScheduleRunsToZero := by
  intro s f n hclosed hmode hf hm hj2
  obtain ⟨t, ht, -, -, hm', hj2'⟩ := runCommands_strideCycles ⟨hclosed, hmode, hm, hj2⟩ hf (n + 1)
  rw [strideGrow_iterate_one] at hm'
  rw [strideShrink_iterate_one] at hj2'
  exact ⟨t, ht, hm', hj2'⟩

end Sys2Proof.Machine
end

section
/-! PROOFS. The Twiddle, Omega and Psi registers: lane selection, NEGATE_MOD_Q, the reduced Montgomery product, and the
two readings of the Omega square (42_arithmetic.md R142 to R160). -/

namespace Sys2Proof.Machine

section
variable {c : Scalar} {s : State}

/-- An X counter selects no lane, and the command goes on without one (R146). -/
theorem withSelectedLane_of_x (h : s.cur.scalar c = .x) (next : Option (Fin 8) → State) :
    withSelectedLane c s next = next none := by
  simp [withSelectedLane, h, selectLane]

/-- A counter of 8 or more raises RANGE_LANE_INDEX (R146). -/
theorem withSelectedLane_of_ge {n : Word} (h : s.cur.scalar c = .known n) (hn : 8 ≤ n.toNat)
    (next : Option (Fin 8) → State) :
    withSelectedLane c s next = raise (.rangeLaneIndex (.scalar c) n.toNat) s := by
  simp [withSelectedLane, h, selectLane_known_ge hn]

end

/-- Settles O39: the three cases of the counter. -/
theorem loadFromPsiStagesTheSelectedLane : Obligations.LoadFromPsiStagesTheSelectedLane := by
  intro s
  refine ⟨_, rfl, ?_⟩
  cases hidx : s.cur.scalar .psiIdx with
  | x =>
    rw [withSelectedLane_of_x hidx]
    exact stageScalar_stagesOnly .twiddle _ s
  | known c =>
    refine ⟨fun k hk => ?_, fun hc => ?_⟩
    · rw [withSelectedLane_of_lane hidx hk]
      exact stageScalar_stagesOnly .twiddle _ s
    · rw [withSelectedLane_of_ge hidx hc]
      exact raise_raisesOnly _ s

/-- Settles O47: the three cases of the counter; the broadcast leaves one value in all lanes. -/
theorem updatePsiBroadcastsOneLane : Obligations.UpdatePsiBroadcastsOneLane := by
  intro s
  refine ⟨_, rfl, ?_⟩
  cases hidx : s.cur.scalar .psiIdx with
  | x =>
    rw [withSelectedLane_of_x hidx, broadcast_eq]
    exact stageWide_stagesOnly .psi _ s
  | known c =>
    refine ⟨fun k hk => ?_, fun hc => ?_⟩
    · rw [withSelectedLane_of_lane hidx hk, broadcast_eq]
      exact stageWide_stagesOnly .psi _ s
    · rw [withSelectedLane_of_ge hidx hc]
      exact raise_raisesOnly _ s

section
variable {s : State} {v q : Word}

theorem exec_negateModQ_of_lt (hv : s.cur.scalar .twiddle = .known v) (hq : s.cur.scalar .q = .known q)
    (h : v.toNat < q.toNat) : exec .negateModQ s = .next (finish (stageScalar .twiddle (.known (q - v)) s)) := by
  simp only [exec, execNegateModQ, hv, hq, if_pos h]

theorem exec_negateModQ_of_le (hv : s.cur.scalar .twiddle = .known v) (hq : s.cur.scalar .q = .known q)
    (h : q.toNat ≤ v.toNat) :
    exec .negateModQ s = .next (raise (.negPrecondition (.scalar .twiddle) v q) s) := by
  simp only [exec, execNegateModQ, hv, hq, if_neg (Nat.not_lt.mpr h)]

theorem exec_negateModQ_of_x (h : s.cur.scalar .twiddle = .x ∨ s.cur.scalar .q = .x) :
    exec .negateModQ s = .next (finish (stageScalar .twiddle .x s)) := by
  simp only [exec, execNegateModQ]
  split
  next hv hq => simp [hv, hq] at h
  next => rfl

/-- A difference that is not negative is the same on numbers and on words (R148). -/
theorem sub_eq_ofNat_of_lt (h : v.toNat < q.toNat) : q - v = BitVec.ofNat 32 (q.toNat - v.toNat) := by
  apply BitVec.eq_of_toNat_eq
  have := q.isLt
  rw [BitVec.toNat_sub_of_le (BitVec.le_def.mpr h.le), BitVec.toNat_ofNat, Nat.mod_eq_of_lt (by omega)]

end

/-- Settles O40: an X operand, and the two sides of the precondition. -/
theorem negateModQSubtractsFromQ : Obligations.NegateModQSubtractsFromQ := by
  intro s
  cases hv : s.cur.scalar .twiddle with
  | x => exact ⟨_, exec_negateModQ_of_x (.inl hv), stageScalar_stagesOnly .twiddle _ s⟩
  | known v =>
    cases hq : s.cur.scalar .q with
    | x => exact ⟨_, exec_negateModQ_of_x (.inr hq), stageScalar_stagesOnly .twiddle _ s⟩
    | known q =>
      by_cases h : v.toNat < q.toNat
      · refine ⟨_, exec_negateModQ_of_lt hv hq h, fun _ => ?_, fun hle => absurd h (Nat.not_lt.mpr hle)⟩
        rw [← sub_eq_ofNat_of_lt h]
        exact stageScalar_stagesOnly .twiddle _ s
      · exact ⟨_, exec_negateModQ_of_le hv hq (Nat.not_lt.mp h), fun hlt => absurd hlt h,
          fun _ => raise_raisesOnly _ s⟩

@[simp] theorem laneOrX_none (l : Lanes) : laneOrX l none = .x := rfl
@[simp] theorem laneOrX_some (l : Lanes) (k : Fin 8) : laneOrX l (some k) = l[k] := rfl

/-- One X operand makes the Montgomery product X (R12, R152). -/
theorem montValue_of_x {a b q qd : Val} (h : a = .x ∨ b = .x ∨ q = .x ∨ qd = .x) : montValue a b q qd = .x := by
  unfold montValue
  split
  next => simp at h
  next => rfl

/-- Settles O42: the three cases of the counter; a selected lane leaves the X operands. -/
theorem updateByOmegaFaultsOrStagesX : Obligations.UpdateByOmegaFaultsOrStagesX := by
  intro s
  refine ⟨_, rfl, ?_⟩
  have hstage := stageScalar_stagesOnly .twiddle .x s
  cases hidx : s.cur.scalar .omegaIdx with
  | x =>
    rw [withSelectedLane_of_x hidx, laneOrX_none, montValue_of_x (.inr (.inl rfl))]
    exact hstage
  | known c =>
    refine ⟨fun hc => ?_, fun k hk hx => ?_⟩
    · rw [withSelectedLane_of_ge hidx hc]
      exact raise_raisesOnly _ s
    · rw [withSelectedLane_of_lane hidx hk, laneOrX_some, montValue_of_x hx]
      exact hstage

/-- Under a consistent modulus pair the sum that the Montgomery function shifts is a multiple of 2^32 (R142). -/
theorem mont_sum_mod {q qd : Nat} (h : (q * qd + 1) % 2 ^ 32 = 0) (p : Nat) :
    (p + p % 2 ^ 32 * qd % 2 ^ 32 * q) % 2 ^ 32 = 0 := by
  have hcongr : p + p % 2 ^ 32 * qd % 2 ^ 32 * q ≡ p * (q * qd + 1) [MOD 2 ^ 32] :=
    calc p + p % 2 ^ 32 * qd % 2 ^ 32 * q
        ≡ p + p * qd * q [MOD 2 ^ 32] :=
          .add_left _ (((Nat.mod_modEq _ _).trans ((Nat.mod_modEq _ _).mul_right _)).mul_right _)
      _ = p * (q * qd + 1) := by ring
  exact hcongr.trans (Nat.modEq_zero_iff_dvd.mpr (dvd_mul_of_dvd_right (Nat.dvd_of_mod_eq_zero h) p))

/-- THE MONTGOMERY REDUCTION (R142 (a)): with a consistent modulus pair and operands below `q`, one subtraction
reduces, and the result times 2^32 is the product modulo `q`. -/
theorem montMul_reduced {a b q qd : Nat} (hpair : ModulusPair q qd) (ha : a < q) (hb : b < q) :
    montMul a b q qd < q ∧ montMul a b q qd * 2 ^ 32 % q = a * b % q := by
  obtain ⟨hinv, -, hq⟩ := hpair
  have hab : a * b < q * 2 ^ 31 :=
    calc a * b < q * q := Nat.mul_lt_mul'' ha hb
      _ ≤ q * 2 ^ 31 := Nat.mul_le_mul_left q hq
  rw [montMul_eq]
  have hsum := mont_sum_mod hinv (a * b)
  generalize hm : a * b % 2 ^ 32 * qd % 2 ^ 32 = m at hsum
  have hmlt : m < 2 ^ 32 := hm ▸ Nat.mod_lt _ (by decide)
  have hmq : m * q ≤ 2 ^ 32 * q := Nat.mul_le_mul_right q hmlt.le
  have hexact : (a * b + m * q) / 2 ^ 32 * 2 ^ 32 = a * b + m * q := by omega
  generalize (a * b + m * q) / 2 ^ 32 = t at hexact
  have ht : t < 2 * q := by omega
  have hcut : t % 2 ^ 32 = t := Nat.mod_eq_of_lt (by omega)
  have hmod : t * 2 ^ 32 % q = a * b % q := by rw [hexact, Nat.add_mul_mod_self_right]
  simp only [hcut]
  split
  next hle =>
    obtain ⟨u, rfl⟩ := Nat.exists_eq_add_of_le hle
    rw [Nat.add_sub_cancel_left, ← hmod, Nat.add_mul, Nat.add_comm, Nat.add_mul_mod_self_left]
    exact ⟨by omega, rfl⟩
  next hlt => exact ⟨by omega, hmod⟩

/-- The Montgomery function is cut to 32 bits (R141). -/
theorem montMul_lt (a b q qd : Nat) : montMul a b q qd < 2 ^ 32 := by
  rw [montMul_eq]
  dsimp only
  split <;> omega

/-- Settles O43: UPDATE_BY_OMEGA stages the Montgomery function of its operands, which the pair reduces. -/
theorem twiddleStepIsTheReducedProduct : Obligations.TwiddleStepIsTheReducedProduct := by
  intro s k c a b q qd hidx hk ha hb hq hqd hpair haq hbq
  obtain ⟨hlt, hmod⟩ := montMul_reduced hpair haq hbq
  have hexec := exec_updateByOmega_of_lane hidx hk
  rw [ha, hb, hq, hqd, montValue_known] at hexec
  refine ⟨_, _, hexec, stageScalar_stagesOnly .twiddle _ s, ?_⟩
  rw [BitVec.toNat_ofNat, Nat.mod_eq_of_lt (montMul_lt ..)]
  exact ⟨hlt, hmod⟩

/-- Lane 0 of a number is its low 32 bits (R52). -/
theorem getElem_lanesOfNat_zero (n : Nat) : (lanesOfNat n)[0] = .known (BitVec.ofNat 32 n) := by
  simpa using getElem_lanesOfNat n 0

/-- The lanes above lane 0 of a number below 2^32 are 0 (R52). -/
theorem getElem_lanesOfNat_of_ne_zero {n : Nat} (hn : n < 2 ^ 32) {k : Fin 8} (hk : k ≠ 0) :
    (lanesOfNat n)[k] = .known 0 := by
  have hpos : 32 ≤ 32 * k.val := by
    have := Fin.val_ne_zero_iff.mpr hk
    omega
  rw [getElem_lanesOfNat, Nat.div_eq_of_lt (hn.trans_le (Nat.pow_le_pow_right (by decide) hpos))]
  rfl

/-- Settles O44: the square of Known operands is below 2^32, so it lies in lane 0. -/
theorem updateOmegaStagesTheSquare : Obligations.UpdateOmegaStagesTheSquare := by
  intro s
  refine ⟨_, _, rfl, stageWide_stagesOnly .omega _ s, ?_⟩
  cases squareOperand Config.omegaSqOperand (s.cur.wide .omega) with
  | x => rfl
  | known v =>
    cases s.cur.scalar .q with
    | x => rfl
    | known q =>
      cases s.cur.scalar .qdash with
      | x => rfl
      | known qd =>
        refine ⟨?_, fun j hj => getElem_lanesOfNat_of_ne_zero (montMul_lt ..) hj⟩
        exact (getElem_lanesOfNat_zero _).trans (congrArg (XVal.known ∘ BitVec.ofNat 32) (montMul_eq ..))

/-- Two numbers with the same eight lanes are equal (R52). -/
theorem eq_of_extractLsb'_lane {n m : WideWord}
    (h : ∀ k : Fin 8, n.extractLsb' (32 * k) 32 = m.extractLsb' (32 * k) 32) : n = m := by
  apply BitVec.eq_of_getLsbD_eq
  intro j hj
  have hbit := congrArg (fun b : Word => b.getLsbD (j % 32)) (h ⟨j / 32, by omega⟩)
  have hlt : j % 32 < 32 := Nat.mod_lt _ (by decide)
  simpa only [BitVec.getLsbD_extractLsb', hlt, decide_true, Bool.true_and, Nat.div_add_mod] using hbit

/-- The whole value is the number that eight Known lanes spell (R10, R52). -/
theorem wholeValue_eq_known_iff (l : Lanes) (n : WideWord) :
    wholeValue l = .known n ↔ ∀ k : Fin 8, l[k] = .known (n.extractLsb' (32 * k) 32) := by
  obtain ⟨m, hm, hwhole⟩ | ⟨⟨k, hk⟩, hwhole⟩ := wholeValue_cases l
  · rw [hwhole]
    refine ⟨fun h => XVal.known.inj h ▸ hm, fun h => congrArg _ (eq_of_extractLsb'_lane fun k => ?_)⟩
    exact XVal.known.inj ((hm k).symm.trans (h k))
  · rw [hwhole]
    exact ⟨nofun, fun h => nomatch hk.symm.trans (h k)⟩

/-- The whole value is X exactly when a lane is X (R10). -/
theorem wholeValue_eq_x_iff (l : Lanes) : wholeValue l = .x ↔ ∃ k : Fin 8, l[k] = .x := by
  refine ⟨fun h => ?_, fun ⟨k, hk⟩ => wholeValue_of_x hk⟩
  obtain ⟨n, -, hwhole⟩ | ⟨hx, -⟩ := wholeValue_cases l
  · exact nomatch h.symm.trans hwhole
  · exact hx

/-- Settles O45: FULL is the whole value, LANE0 the lane 0 zero-extended. -/
theorem omegaSquareOperandHasTwoReadings : Obligations.OmegaSquareOperandHasTwoReadings := by
  refine fun l => ⟨wholeValue_eq_known_iff l, wholeValue_eq_x_iff l, fun v hv => ?_, fun hx => ?_⟩
  · rw [squareOperand, hv, zext256_known, BitVec.ofNat_toNat]
  · rw [squareOperand, hx, zext256_x]

/-- The Montgomery function reads 64 bits of the product: the shifted sum is cut to 32 bits (R140, R141). -/
theorem montMul_congr {a b a' b' : Nat} (h : a * b ≡ a' * b' [MOD 2 ^ 64]) (q qd : Nat) :
    montMul a b q qd = montMul a' b' q qd := by
  have hlow : a * b % 2 ^ 32 = a' * b' % 2 ^ 32 := h.of_dvd (by decide)
  have hsum : a * b + a' * b' % 2 ^ 32 * qd % 2 ^ 32 * q ≡ a' * b' + a' * b' % 2 ^ 32 * qd % 2 ^ 32 * q [MOD 2 ^ 64] :=
    h.add_right _
  have hshift {m n : Nat} (hmn : m ≡ n [MOD 2 ^ 64]) : m / 2 ^ 32 % 2 ^ 32 = n / 2 ^ 32 % 2 ^ 32 := by
    unfold Nat.ModEq at hmn
    omega
  rw [montMul_eq, montMul_eq, hlow, hshift hsum]

/-- The Omega square of a Known operand depends on its low 64 bits alone (R155). -/
theorem squareLanes_congr {v v' : WideWord} (h : v.toNat ≡ v'.toNat [MOD 2 ^ 64]) (q qd : Val) :
    squareLanes (.known v) q qd = squareLanes (.known v') q qd := by
  cases q with
  | x => rfl
  | known q =>
    cases qd with
    | x => rfl
    | known qd => exact congrArg lanesOfNat (montMul_congr (h.mul h) _ _)

/-- The low 64 bits of a number are its lanes 0 and 1 (R52). -/
theorem toNat_mod_two_pow_64 (n : WideWord) :
    n.toNat % 2 ^ 64 = (n.extractLsb' 0 32).toNat + 2 ^ 32 * (n.extractLsb' 32 32).toNat := by
  simp only [BitVec.extractLsb'_toNat, Nat.shiftRight_eq_div_pow]
  omega

/-- Eight Known lanes are those of a number, their whole value. -/
theorem exists_wholeValue_of_ne_x {l : Lanes} (h : ∀ k : Fin 8, l[k] ≠ .x) :
    ∃ n : WideWord, wholeValue l = .known n ∧ l[0] = .known (n.extractLsb' 0 32) ∧
      l[1] = .known (n.extractLsb' 32 32) := by
  obtain ⟨n, hn, hwhole⟩ | ⟨⟨k, hk⟩, -⟩ := wholeValue_cases l
  · exact ⟨n, hwhole, hn 0, hn 1⟩
  · exact absurd hk (h k)

/-- Settles O46: equal lanes 0 and 1 are equal low 64 bits, and where lane 1 is 0 they are lane 0 zero-extended. -/
theorem omegaSquareReadsTheLow64Bits : Obligations.OmegaSquareReadsTheLow64Bits := by
  refine ⟨fun s₁ s₂ hknown h0 h1 hq hqd => ?_, fun s hknown h1 => ?_⟩
  · obtain ⟨n, hn, hn0, hn1⟩ := exists_wholeValue_of_ne_x fun k => (hknown k).1
    obtain ⟨m, hm, hm0, hm1⟩ := exists_wholeValue_of_ne_x fun k => (hknown k).2
    have hlow : n.toNat ≡ m.toNat [MOD 2 ^ 64] := by
      have e0 := XVal.known.inj (hn0.symm.trans (h0.trans hm0))
      have e1 := XVal.known.inj (hn1.symm.trans (h1.trans hm1))
      rw [Nat.ModEq, toNat_mod_two_pow_64, toNat_mod_two_pow_64, e0, e1]
    simp only [updateOmegaWith, squareOperand, hn, hm, hq, hqd, squareLanes_congr hlow, finish_pend, stageWide_pend,
      File.wide_setWide_same]
  · obtain ⟨n, hn, hn0, hn1⟩ := exists_wholeValue_of_ne_x hknown
    have hlow : n.toNat ≡ ((n.extractLsb' 0 32).setWidth 256).toNat [MOD 2 ^ 64] := by
      have e1 : (n.extractLsb' 32 32).toNat = 0 := congrArg BitVec.toNat (XVal.known.inj (hn1.symm.trans h1))
      have := (n.extractLsb' 0 32).isLt
      rw [Nat.ModEq, toNat_mod_two_pow_64, e1, BitVec.toNat_setWidth_of_le (by decide)]
      omega
    simp only [updateOmegaWith, squareOperand, hn, hn0, zext256_known, squareLanes_congr hlow]

end Sys2Proof.Machine
end

section
/-! PROOFS. CHANGES and its trace lines, PEEK, and a file that WIPE and COMMIT have made X (43_register_file.md R174 to
R181). -/

namespace Sys2Proof.Machine

section
variable {s : State}

/-- The 13 registers stand in ascending index order (R174). -/
theorem allRegs_pairwise_index : allRegs.Pairwise fun a b => a.index < b.index := by
  decide

theorem mem_filter_allRegs (p : Reg → Bool) (r : Reg) : r ∈ allRegs.filter p ↔ p r = true := by
  simp [mem_allRegs]

/-- CHANGES answers the entries of the pending set, however its entries are written (R174). -/
theorem changes_answersOnly {entry : Reg → TraceEntry}
    (h : ∀ r, entry r = traceEntry Config.tracePrefix r (s.pending r)) :
    AnswersOnly s { Output.idle with list := .changes ((allRegs.filter s.isDirty).map entry) }
      (answerList (.changes (traceEntries Config.tracePrefix s)) s) := by
  obtain rfl : entry = fun r => traceEntry Config.tracePrefix r (s.pending r) := funext h
  exact answerList_answersOnly _ s

end

/-- Settles O51: the Dirty registers among the 13, in their order, and the fields of each entry. -/
theorem changesListsThePendingSet : Obligations.ChangesListsThePendingSet := by
  intro s _
  refine ⟨allRegs.filter s.isDirty, _, rfl, allRegs_pairwise_index.filter _, mem_filter_allRegs _,
    changes_answersOnly fun r => ?_⟩
  refine (TraceEntry.mk.injEq ..).mpr ⟨rfl, ?_, ?_⟩
  · cases r <;> rfl
  · cases s.pending r with
    | none => rfl
    | some v =>
      rw [Option.map_some, Option.bind_some]
      cases v.number <;> rfl

/-- A hexadecimal digit reads back as its value (R177). -/
theorem hexadecimalDigit_hexDigit {n : Nat} (hn : n < 16) : hexadecimalDigit (hexDigit n) = some n := by
  interval_cases n <;> decide

/-- The digits of a number are as many as were asked for (R177). -/
theorem length_hexDigits (k n : Nat) (acc : List Char) : (hexDigits k n acc).length = k + acc.length := by
  induction k generalizing n acc with
  | zero => simp [hexDigits]
  | succ k ih =>
    rw [hexDigits, ih, List.length_cons]
    omega

/-- Reading k digits puts the number, cut to k digits, behind what was read before (R177). -/
theorem digitsValue_hexDigits (k n m : Nat) (acc : List Char) :
    digitsValue 16 hexadecimalDigit (hexDigits k n acc) m =
      digitsValue 16 hexadecimalDigit acc (16 ^ k * m + n % 16 ^ k) := by
  induction k generalizing n acc with
  | zero => simp [hexDigits, Nat.mod_one]
  | succ k ih =>
    have hstep : 16 * (16 ^ k * m + n / 16 % 16 ^ k) + n % 16 = 16 ^ (k + 1) * m + n % 16 ^ (k + 1) := by
      rw [pow_succ', Nat.mod_mul]
      ring
    rw [hexDigits, ih, digitsValue, hexadecimalDigit_hexDigit (Nat.mod_lt _ (by decide)), ← hstep]

theorem traceDigits_of_none {e : TraceEntry} (h : e.value = none) :
    traceDigits e = List.replicate (e.width / 4) 'x' := by
  simp only [traceDigits, h]

theorem traceDigits_of_some {e : TraceEntry} {n : Nat} (h : e.value = some n) :
    traceDigits e = hexDigits (e.width / 4) n [] := by
  simp only [traceDigits, h]

/-- A trace line has width/4 digits (R177). -/
theorem length_traceDigits (e : TraceEntry) : (traceDigits e).length = e.width / 4 := by
  cases h : e.value with
  | none => rw [traceDigits_of_none h, List.length_replicate]
  | some n => rw [traceDigits_of_some h, length_hexDigits, List.length_nil, Nat.add_zero]

/-- Settles O52: the two kinds of digits, and reading the hexadecimal ones back. -/
theorem traceLineHasWidthOverFourDigits : Obligations.TraceLineHasWidthOverFourDigits := by
  refine fun e => ⟨rfl, length_traceDigits e, fun hnone c hc => ?_, fun n hsome hn => ?_⟩
  · rw [traceDigits_of_none hnone] at hc
    exact List.eq_of_mem_replicate hc
  · rw [traceDigits_of_some hsome, digitsValue_hexDigits, digitsValue, Nat.mod_eq_of_lt hn, Nat.mul_zero, Nat.zero_add]

/-- Settles O53: each line is rendered. -/
theorem traceLinesOfTheSpec : Obligations.TraceLinesOfTheSpec := by
  unfold Obligations.TraceLinesOfTheSpec
  decide

/-- A register stands at its index in the list of the 13 (R20). -/
theorem allRegs_getElem?_index (r : Reg) : allRegs[r.index]? = some r := by
  rcases r with c | w
  · cases c <;> rfl
  · cases w <;> rfl

/-- Settles O54: the number at a register's index is the one READ of that register answers. -/
theorem peekAnswersEveryCurrentValue : Obligations.PeekAnswersEveryCurrentValue := by
  refine fun s => ⟨_, _, rfl, answerList_answersOnly _ s, rfl, fun r => ⟨_, rfl, ?_⟩⟩
  rw [List.getElem?_map, allRegs_getElem?_index, Option.map_some, answer_out]
  cases (s.current r).number <;> rfl

/-- The commands that compute a value of their register from current values (R61). -/
def isComputing : Instr → Bool
  | .increment _ | .setFromCounterDa0 | .setFromCounterDa1 | .loadFromPsi | .negateModQ | .updateByOmega | .updateOmega
  | .updatePsi | .updateM | .updateJ2 => true
  | .read _ | .readPending _ | .write _ | .readLane _ _ | .writeLane _ _ | .commit | .abort | .changes | .peek
  | .wipe => false

/-- X in the shape of a register: X, or eight X lanes (R180). -/
def unknownValue : Reg → RegValue
  | .scalar _ => .scalar .x
  | .wide _ => .wide (Vector.replicate 8 .x)

theorem number_unknownValue (r : Reg) : (unknownValue r).number = .x := by
  cases r <;> rfl

theorem finish_pending (s : State) (r : Reg) : (finish s).pending r = s.pending r := rfl

/-- WIPE stages X in every register, in its own shape (R180). -/
theorem poisonAll_pending (s : State) (r : Reg) : (poisonAll s).pending r = some (unknownValue r) := by
  cases r with
  | scalar c => exact poisonAll_pending_scalar s c
  | wide w => exact poisonAll_pending_wide s w

/-- Every register is X, every lane of a wide one (R181). -/
def State.AllUnknown (s : State) : Prop := ∀ r, s.current r = unknownValue r

/-- WIPE and COMMIT leave a closed cycle in which every register is X (R170, R180, R181). -/
theorem runCommands_wipe_commit (s : State) :
    ∃ t, runCommands [(.wipe, 0), (.commit, 0)] s = .next t ∧ t.CycleClosed ∧ t.AllUnknown := by
  obtain ⟨t, ht, hclosed, hcur⟩ := runCommands_commit (d := 0) (poisonAll_pendingInvariant { s with wdata := 0 }).finish
  refine ⟨t, (runCommands_cons (i := .wipe) rfl _).trans ht, hclosed, fun r => ?_⟩
  rw [hcur, finish_pending, poisonAll_pending, Option.getD_some]

section
variable {s : State}

theorem State.AllUnknown.scalar (h : s.AllUnknown) (c : Scalar) : s.cur.scalar c = .x := by
  simpa [unknownValue] using h (.scalar c)

theorem State.AllUnknown.wide (h : s.AllUnknown) (w : Wide) : s.cur.wide w = Vector.replicate 8 .x := by
  simpa [unknownValue] using h (.wide w)

/-- An X operand makes the Omega square X, whichever operand the block squares (R155). -/
theorem squareLanes_of_x (v : XVal 256) (qd : Val) : squareLanes v .x qd = Vector.replicate 8 .x := by
  cases v <;> rfl

/-- A well-formed INCREMENT names one of the five counters (R35, R120). -/
theorem counter_of_wellFormed {r : Reg} (h : (Instr.increment r).wellFormed = true) :
    ∃ c : Scalar, r = .scalar c ∧ (c = .omegaIdx ∨ c = .psiIdx ∨ c = .j ∨ c = .da0 ∨ c = .da1) := by
  cases r with
  | scalar c => cases c <;> first | exact ⟨_, rfl, by decide⟩ | cases h
  | wide w => cases w <;> cases h

/-- Where every operand is X, no range is checked and each computing command stages X in its register (R12, R181). -/
theorem State.AllUnknown.computes (h : s.AllUnknown) {i : Instr} {r : Reg} (hi : isComputing i = true)
    (hwf : i.wellFormed = true) (hr : i.reg? = some r) :
    ∃ u, exec i s = .next u ∧ StagesOnly s r (unknownValue r) u := by
  have hscalar (c : Scalar) : StagesOnly s (.scalar c) (unknownValue (.scalar c)) (finish (stageScalar c .x s)) :=
    stageScalar_stagesOnly c .x s
  have hwide (w : Wide) :
      StagesOnly s (.wide w) (unknownValue (.wide w)) (finish (stageWide w (Vector.replicate 8 .x) s)) :=
    stageWide_stagesOnly w _ s
  cases i <;> cases hi <;> cases hr
  case increment =>
    obtain ⟨c, rfl, hc⟩ := counter_of_wellFormed hwf
    exact ⟨_, (exec_increment_counter s hc).trans (congrArg _ (incrementCounter_of_x (h.scalar c))), hscalar c⟩
  case setFromCounterDa0 =>
    exact ⟨_, by simp only [exec, execSetFromCounterDa0, h.scalar, plainAddressValue], hscalar _⟩
  case setFromCounterDa1 =>
    exact ⟨_, by simp only [exec, execSetFromCounterDa1, h.scalar, offsetAddressValue], hscalar _⟩
  case loadFromPsi =>
    exact ⟨_, by simp only [exec, execLoadFromPsi, withSelectedLane_of_x (h.scalar _), laneOrX_none], hscalar _⟩
  case negateModQ => exact ⟨_, exec_negateModQ_of_x (.inl (h.scalar _)), hscalar _⟩
  case updateByOmega =>
    exact ⟨_, by simp only [exec, execUpdateByOmega, withSelectedLane_of_x (h.scalar _),
      montValue_of_x (.inl (h.scalar _))], hscalar _⟩
  case updateOmega =>
    exact ⟨_, by simp only [exec, execUpdateOmega, updateOmegaWith, h.scalar, squareLanes_of_x], hwide _⟩
  case updatePsi =>
    exact ⟨_, by simp only [exec, execUpdatePsi, withSelectedLane_of_x (h.scalar _), laneOrX_none, broadcast_eq],
      hwide _⟩
  case updateM => exact ⟨_, by simp only [exec, execUpdateM, h.scalar, strideValue], hscalar _⟩
  case updateJ2 => exact ⟨_, by simp only [exec, execUpdateJ2, h.scalar, strideValue], hscalar _⟩

end

/-- Settles O56: READ finds X everywhere, and so does every computing command. -/
theorem wipedFileIsAllX : Obligations.WipedFileIsAllX := by
  intro s
  obtain ⟨t, ht, hclosed, hx⟩ := runCommands_wipe_commit s
  refine ⟨t, ht, hclosed, fun r => ⟨_, rfl, ?_⟩, fun i r hi => ?_⟩
  · rw [answer_out, hx r, number_unknownValue, readOutput_x]
  · obtain ⟨rfl, hwf⟩ | ⟨rfl, rfl⟩ | ⟨rfl, rfl⟩ | ⟨rfl | rfl | rfl, rfl⟩ | ⟨rfl, rfl⟩ | ⟨rfl, rfl⟩ | ⟨rfl, rfl⟩ |
      ⟨rfl, rfl⟩ := hi
    · obtain ⟨u, hu, hstage⟩ := hx.computes rfl hwf rfl
      exact ⟨u, hu, by cases r <;> exact hstage⟩
    all_goals exact hx.computes rfl rfl rfl

end Sys2Proof.Machine
end

section
/-! PROOFS. What the effect of a command that names a register depends on, and two consequences: a computing command
sees no pending value, and commands to different registers commute (20_memory.md R61, R64). -/

namespace Sys2Proof.Machine

/-- What a command that names a register does to the block: it stages a value there, raises a fault, or neither. -/
inductive RegEffect where
  | stage (v : RegValue)
  | raise (f : BlockFault)
  | quiet

namespace RegEffect

/-- The effect on register `r`, from `s` to `t`. -/
def Takes (r : Reg) (s t : State) : RegEffect → Prop
  | .stage v => StagesOnly s r v t
  | .raise f => RaisesOnly s f t
  | .quiet => ∃ o : Output, o.faultOut = none ∧ AnswersOnly s o t

/-- The value staged, if the effect stages one. -/
def staged : RegEffect → Option RegValue
  | .stage v => some v
  | .raise _ | .quiet => none

/-- The fault raised, if the effect raises one. -/
def raised : RegEffect → Option BlockFault
  | .raise f => some f
  | .stage _ | .quiet => none

end RegEffect

/-- Command `i` has the effect `e` on register `r`, the same on every state that `same` admits. -/
def HasEffect (i : Instr) (r : Reg) (same : State → Prop) (e : RegEffect) : Prop :=
  ∀ u, same u → ∃ t, exec i u = .next t ∧ e.Takes r u t

section
variable {i : Instr} {r : Reg} {same same' : State → Prop} {e : RegEffect}

theorem HasEffect.mono (h : HasEffect i r same e) (hsub : ∀ u, same' u → same u) : HasEffect i r same' e :=
  fun u hu => h u (hsub u hu)

theorem HasEffect.scalar {c : Scalar} {v : Val}
    (h : ∀ u, same u → exec i u = .next (finish (stageScalar c v u))) :
    HasEffect i (.scalar c) same (.stage (.scalar v)) :=
  fun u hu => ⟨_, h u hu, stageScalar_stagesOnly c v u⟩

theorem HasEffect.wide {w : Wide} {l : Lanes} (h : ∀ u, same u → exec i u = .next (finish (stageWide w l u))) :
    HasEffect i (.wide w) same (.stage (.wide l)) :=
  fun u hu => ⟨_, h u hu, stageWide_stagesOnly w l u⟩

theorem HasEffect.fault {f : BlockFault} (h : ∀ u, same u → exec i u = .next (Sys2Proof.Machine.raise f u)) :
    HasEffect i r same (.raise f) :=
  fun u hu => ⟨_, h u hu, raise_raisesOnly f u⟩

theorem HasEffect.read {n : XVal 256} (h : ∀ u, same u → exec i u = .next (Sys2Proof.Machine.answer n u)) :
    HasEffect i r same .quiet :=
  fun u hu => ⟨_, h u hu, readOutput n, by cases n <;> rfl, answer_answersOnly n u⟩

end

/-- The current values fix what command `i` does to register `r`: it stages one value, or raises one fault, on every
state that holds them (R61). -/
def FixedByCurrent (i : Instr) (r : Reg) (cur : File Val Lanes) : Prop :=
  ∃ e, e ≠ .quiet ∧ HasEffect i r (fun u => u.cur = cur) e

section
variable {i : Instr} {r : Reg} {cur : File Val Lanes}

theorem FixedByCurrent.scalar {c : Scalar} {v : Val}
    (h : ∀ u : State, u.cur = cur → exec i u = .next (finish (stageScalar c v u))) :
    FixedByCurrent i (.scalar c) cur :=
  ⟨.stage (.scalar v), nofun, .scalar h⟩

theorem FixedByCurrent.wide {w : Wide} {l : Lanes}
    (h : ∀ u : State, u.cur = cur → exec i u = .next (finish (stageWide w l u))) : FixedByCurrent i (.wide w) cur :=
  ⟨.stage (.wide l), nofun, .wide h⟩

theorem FixedByCurrent.fault {f : BlockFault}
    (h : ∀ u : State, u.cur = cur → exec i u = .next (Sys2Proof.Machine.raise f u)) : FixedByCurrent i r cur :=
  ⟨.raise f, nofun, .fault h⟩

/-- A command over a counter-selected lane: the current values fix the counter, and with it the lane or the fault
(R146). -/
theorem FixedByCurrent.selected {c : Scalar} {next : State → Option (Fin 8) → State}
    (hexec : ∀ u, exec i u = .next (withSelectedLane c u (next u)))
    (hnext : ∀ k, ∃ v, ∀ u : State, u.cur = cur → StagesOnly u r v (next u k)) : FixedByCurrent i r cur := by
  have hstage (k : Option (Fin 8))
      (hk : ∀ u : State, u.cur = cur → withSelectedLane c u (next u) = next u k) : FixedByCurrent i r cur := by
    obtain ⟨v, hv⟩ := hnext k
    exact ⟨.stage v, nofun, fun u hu => ⟨_, (hexec u).trans (congrArg _ (hk u hu)), hv u hu⟩⟩
  cases hc : cur.scalar c with
  | x => exact hstage none fun u hu => withSelectedLane_of_x (hu ▸ hc) _
  | known n =>
    by_cases hn : n.toNat < 8
    · exact hstage (some ⟨n.toNat, hn⟩) fun u hu => withSelectedLane_of_lane (hu ▸ hc) rfl _
    · exact .fault fun u hu => (hexec u).trans (congrArg _ (withSelectedLane_of_ge (hu ▸ hc) (Nat.not_lt.mp hn) _))

theorem FixedByCurrent.counter {c : Scalar} (hexec : ∀ u, exec i u = .next (incrementCounter c u)) :
    FixedByCurrent i (.scalar c) cur := by
  cases hc : cur.scalar c with
  | x => exact .scalar fun u hu => (hexec u).trans (congrArg _ (incrementCounter_of_x (hu ▸ hc)))
  | known v =>
    by_cases hv : v.toNat = 2 ^ 32 - 1
    · exact .fault fun u hu => (hexec u).trans (congrArg _ (incrementCounter_of_saturated (hu ▸ hc) hv))
    · exact .scalar fun u hu => (hexec u).trans (congrArg _ (incrementCounter_of_not_saturated (hu ▸ hc) hv))

theorem FixedByCurrent.negateModQ : FixedByCurrent .negateModQ (.scalar .twiddle) cur := by
  cases hv : cur.scalar .twiddle with
  | x => exact .scalar fun u hu => exec_negateModQ_of_x (.inl (hu ▸ hv))
  | known v =>
    cases hq : cur.scalar .q with
    | x => exact .scalar fun u hu => exec_negateModQ_of_x (.inr (hu ▸ hq))
    | known q =>
      by_cases h : v.toNat < q.toNat
      · exact .scalar fun u hu => exec_negateModQ_of_lt (hu ▸ hv) (hu ▸ hq) h
      · exact .fault fun u hu => exec_negateModQ_of_le (hu ▸ hv) (hu ▸ hq) (Nat.not_lt.mp h)

/-- THE CURRENT VALUES FIX EVERY COMPUTING COMMAND (R61). -/
theorem fixedByCurrent_of_computing (hi : isComputing i = true) (hr : i.reg? = some r) (cur : File Val Lanes) :
    FixedByCurrent i r cur := by
  cases i <;> cases hi <;> cases hr
  case increment =>
    cases hwf : (Instr.increment r).wellFormed with
    | false => exact .fault fun u _ => exec_of_not_wellFormed hwf u
    | true =>
      obtain ⟨c, rfl, hc⟩ := counter_of_wellFormed hwf
      exact .counter fun u => exec_increment_counter u hc
  case setFromCounterDa0 =>
    exact .scalar (v := plainAddressValue (cur.scalar .j)) (by rintro u rfl; rfl)
  case setFromCounterDa1 =>
    exact .scalar (v := offsetAddressValue (cur.scalar .j) (cur.scalar .m)) (by rintro u rfl; rfl)
  case loadFromPsi =>
    refine .selected (fun _ => rfl) fun k => ⟨.scalar (laneOrX (cur.wide .psi) k), ?_⟩
    rintro u rfl
    exact stageScalar_stagesOnly .twiddle _ u
  case negateModQ => exact .negateModQ
  case updateByOmega =>
    refine .selected (fun _ => rfl) fun k => ⟨.scalar (montValue (cur.scalar .twiddle) (laneOrX (cur.wide .omega) k)
      (cur.scalar .q) (cur.scalar .qdash)), ?_⟩
    rintro u rfl
    exact stageScalar_stagesOnly .twiddle _ u
  case updateOmega =>
    exact .wide (l := squareLanes (squareOperand Config.omegaSqOperand (cur.wide .omega)) (cur.scalar .q)
      (cur.scalar .qdash)) (by rintro u rfl; rfl)
  case updatePsi =>
    refine .selected (fun _ => rfl) fun k => ⟨.wide (Vector.replicate 8 (laneOrX (cur.wide .omega) k)), ?_⟩
    rintro u rfl
    rw [broadcast_eq]
    exact stageWide_stagesOnly .psi _ u
  case updateM =>
    exact .scalar (v := strideValue strideGrow strideShrink (cur.scalar .m) (cur.scalar .mode)) (by rintro u rfl; rfl)
  case updateJ2 =>
    exact .scalar (v := strideValue strideShrink strideGrow (cur.scalar .j2) (cur.scalar .mode)) (by rintro u rfl; rfl)

end

/-- A bank is the current values of its registers. -/
theorem cur_eq_of_current {s t : State} (h : ∀ r, s.current r = t.current r) : s.cur = t.cur :=
  File.ext_of_registers (fun c => by simpa using h (.scalar c)) (fun w => by simpa using h (.wide w))

/-- Settles O20: both states hold the current values that fix the command. -/
theorem computingCommandsReadCurrentValuesOnly : Obligations.ComputingCommandsReadCurrentValuesOnly := by
  intro i s₁ s₂ hi hcur
  obtain ⟨hcomp, r, hr⟩ : isComputing i = true ∧ ∃ r, i.reg? = some r := by
    obtain ⟨r, rfl⟩ | rfl | rfl | rfl | rfl | rfl | rfl | rfl | rfl | rfl := hi <;> exact ⟨rfl, _, rfl⟩
  obtain ⟨e, hloud, heffect⟩ := fixedByCurrent_of_computing hcomp hr s₂.cur
  obtain ⟨t₁, ht₁, htakes₁⟩ := heffect s₁ (cur_eq_of_current hcur)
  obtain ⟨t₂, ht₂, htakes₂⟩ := heffect s₂ rfl
  refine ⟨t₁, t₂, ht₁, ht₂, ?_⟩
  cases e with
  | stage v => exact .inl ⟨r, v, htakes₁, htakes₂⟩
  | raise f => exact .inr ⟨f, htakes₁, htakes₂⟩
  | quiet => exact absurd rfl hloud

/-- What a command on register `r` can depend on: the current values, what is pending for `r`, and the write data. -/
def State.SameInputs (r : Reg) (s u : State) : Prop :=
  u.cur = s.cur ∧ u.pending r = s.pending r ∧ u.wdata = s.wdata

section
variable {s u : State}

theorem State.SameInputs.pend_wide {w : Wide} (h : s.SameInputs (.wide w) u) : u.pend.wide w = s.pend.wide w := by
  obtain ⟨-, hpend, -⟩ := h
  exact Option.map_injective (fun _ _ => RegValue.wide.inj) hpend

theorem State.SameInputs.pendingOrCurrent_eq {r : Reg} (h : s.SameInputs r u) :
    pendingOrCurrent r u = pendingOrCurrent r s := by
  obtain ⟨hcur, hpend, -⟩ := h
  rw [Sys2Proof.Machine.pendingOrCurrent_eq, Sys2Proof.Machine.pendingOrCurrent_eq, hpend]
  cases r <;> simp [hcur]

end

section
variable (s : State)

theorem exists_hasEffect_write (r : Reg) : ∃ e, HasEffect (.write r) r (s.SameInputs r) e := by
  by_cases hd : 2 ^ regWidth r ≤ s.wdata
  · exact ⟨.raise (.rangeValue r s.wdata), .fault fun u ⟨_, _, hwdata⟩ => hwdata ▸ exec_write_of_ge (hwdata ▸ hd)⟩
  · rw [Nat.not_le] at hd
    cases r with
    | scalar c => exact ⟨.stage _, .scalar fun u ⟨_, _, hwdata⟩ => hwdata ▸ exec_write_scalar_of_lt c (hwdata ▸ hd)⟩
    | wide w => exact ⟨.stage _, .wide fun u ⟨_, _, hwdata⟩ => hwdata ▸ exec_write_wide_of_lt w (hwdata ▸ hd)⟩

theorem exists_hasEffect_readLane (r : Reg) (k : BitVec 4) :
    ∃ e, HasEffect (.readLane r k) r (s.SameInputs r) e := by
  cases r with
  | scalar c => exact ⟨.raise _, .fault fun _ _ => rfl⟩
  | wide w =>
    by_cases hk : k.toNat < 8
    · refine ⟨.quiet, .read (n := zext256 (s.cur.wide w)[k.toNat]) fun u ⟨hcur, _⟩ => ?_⟩
      rw [exec_readLane_of_lt w hk, hcur]
    · exact ⟨.raise _, .fault fun u _ => exec_readLane_of_ge w (Nat.not_lt.mp hk) u⟩

theorem exists_hasEffect_writeLane (r : Reg) (k : BitVec 4) :
    ∃ e, HasEffect (.writeLane r k) r (s.SameInputs r) e := by
  cases r with
  | scalar c => exact ⟨.raise _, .fault fun _ _ => rfl⟩
  | wide w =>
    by_cases hk : k.toNat < 8
    · by_cases hd : 2 ^ 32 ≤ s.wdata
      · exact ⟨.raise (.rangeValue (.wide w) s.wdata), .fault fun u ⟨_, _, hwdata⟩ =>
          hwdata ▸ exec_writeLane_of_wdata_ge w hk (hwdata ▸ hd)⟩
      · refine ⟨.stage _, .wide (l := ((s.pend.wide w).getD (s.cur.wide w)).set k.toNat
          (.known (BitVec.ofNat 32 s.wdata))) fun u hu => ?_⟩
        have hpend := hu.pend_wide
        obtain ⟨hcur, -, hwdata⟩ := hu
        rw [exec_writeLane_of_lt w hk (by omega), hpend, hcur, hwdata]
    · exact ⟨.raise _, .fault fun u _ => exec_writeLane_of_lane_ge w (Nat.not_lt.mp hk)⟩

/-- THE INPUTS OF A COMMAND THAT NAMES A REGISTER: its effect is the same wherever the current values, what is pending
for its register, and the write data are. -/
theorem exists_hasEffect {i : Instr} {r : Reg} (hr : i.reg? = some r) : ∃ e, HasEffect i r (s.SameInputs r) e := by
  have computing (hcomp : isComputing i = true) : ∃ e, HasEffect i r (s.SameInputs r) e := by
    obtain ⟨e, -, heffect⟩ := fixedByCurrent_of_computing hcomp hr s.cur
    exact ⟨e, heffect.mono fun u ⟨hcur, _⟩ => hcur⟩
  cases i <;> try exact computing rfl
  all_goals cases hr
  case read =>
    refine ⟨.quiet, .read (n := (s.current r).number) fun u ⟨hcur, _⟩ => ?_⟩
    have : u.current r = s.current r := by cases r <;> simp [hcur]
    rw [← this]
    rfl
  case readPending =>
    refine ⟨.quiet, .read (n := (pendingOrCurrent r s).number) fun u hu => ?_⟩
    rw [← hu.pendingOrCurrent_eq]
    rfl
  case write => exact exists_hasEffect_write s r
  case readLane k => exact exists_hasEffect_readLane s r k
  case writeLane k => exact exists_hasEffect_writeLane s r k

end

/-- `t` is `s` after the effect `e` on register `r`, as far as the registers and the record go: what is staged is
pending, and a fault is recorded when the record is empty (R34, R202). -/
structure RegEffect.Leaves (e : RegEffect) (r : Reg) (s t : State) : Prop where
  current : ∀ x, t.current x = s.current x
  pending : ∀ x, t.pending x = if x = r then e.staged.or (s.pending x) else s.pending x
  isDirty : ∀ x, t.isDirty x = if x = r then e.staged.isSome || s.isDirty x else s.isDirty x
  fault : t.fault = s.fault.or e.raised
  faultOut : t.out.faultOut = e.raised.map BlockFault.code

section
variable {e : RegEffect} {r : Reg} {s t : State}

/-- An effect that stages nothing leaves every register as it was. -/
theorem RegEffect.Leaves.of_sameRegisters (hstaged : e.staged = none) (hregs : s.SameRegisters t)
    (hfault : t.fault = s.fault.or e.raised) (hout : t.out.faultOut = e.raised.map BlockFault.code) :
    e.Leaves r s t where
  current x := congrFun hregs.current_eq x
  pending x := by simp [hregs.pending_eq, hstaged]
  isDirty x := by simp [hregs.isDirty_eq, hstaged]
  fault := hfault
  faultOut := hout

theorem RegEffect.Takes.leaves (h : e.Takes r s t) : e.Leaves r s t := by
  cases e with
  | stage v =>
    obtain ⟨hpend, hdirty, hothers, hcur, hfault, -, -, hout⟩ := h
    refine ⟨hcur, fun x => ?_, fun x => ?_, by simp [hfault, raised], by simp [hout, raised]⟩
    · by_cases hx : x = r
      · simp [hx, hpend, staged]
      · simp [hx, (hothers x hx).1]
    · by_cases hx : x = r
      · simp [hx, hdirty, staged]
      · simp [hx, (hothers x hx).2]
  | raise f =>
    obtain ⟨hregs, hfault, -, -, hout⟩ := h
    refine .of_sameRegisters rfl hregs ?_ (by simp [hout, raised])
    cases hs : s.fault <;> simp [hfault, hs, raised]
  | quiet =>
    obtain ⟨o, hquiet, hregs, hfault, -, -, hout⟩ := h
    exact .of_sameRegisters rfl hregs (by simp [hfault, raised]) (by simp [hout, hquiet, raised])

/-- The write-data bus is no register (R70). -/
theorem RegEffect.Leaves.of_wdata {d : Nat} (h : e.Leaves r { s with wdata := d } t) : e.Leaves r s t :=
  ⟨h.current, h.pending, h.isDirty, h.fault, h.faultOut⟩

/-- An effect on one register leaves the inputs of a command on another (R61). -/
theorem RegEffect.Leaves.sameInputs {r' : Reg} (h : e.Leaves r s t) (hne : r' ≠ r) (d : Nat) :
    State.SameInputs r' { s with wdata := d } { t with wdata := d } :=
  ⟨cur_eq_of_current h.current, (h.pending r').trans (if_neg hne), rfl⟩

theorem RegEffect.Leaves.raised_eq_none (h : e.Leaves r s t) (hout : t.out.faultOut = none) : e.raised = none := by
  rw [h.faultOut] at hout
  exact Option.map_eq_none_iff.mp hout

end

/-- Two effects on different registers leave the same registers in either order, and the same record when one of them
raises nothing (R64). -/
theorem RegEffect.Leaves.comm {ei ej : RegEffect} {ri rj : Reg} {s a b c d : State} (hi : ei.Leaves ri s a)
    (hj : ej.Leaves rj a b) (hj' : ej.Leaves rj s c) (hi' : ei.Leaves ri c d) (hne : ri ≠ rj) :
    (∀ x, b.current x = d.current x ∧ b.pending x = d.pending x ∧ b.isDirty x = d.isDirty x) ∧
    (ei.raised = none ∨ ej.raised = none → b.fault = d.fault) := by
  refine ⟨fun x => ⟨?_, ?_, ?_⟩, fun h => ?_⟩
  · rw [hj.current, hi.current, hi'.current, hj'.current]
  · rw [hj.pending, hi.pending, hi'.pending, hj'.pending]
    by_cases hx : x = ri
    · simp [hx, hne]
    · simp [hx]
  · rw [hj.isDirty, hi.isDirty, hi'.isDirty, hj'.isDirty]
    by_cases hx : x = ri
    · simp [hx, hne]
    · simp [hx]
  · rw [hj.fault, hi.fault, hi'.fault, hj'.fault]
    obtain h | h := h <;> simp [h]

/-- The effect that a command has on `s` it has on every state with the same inputs. -/
theorem HasEffect.leaves {i : Instr} {r : Reg} {e : RegEffect} {s u t : State} {d : Nat}
    (h : HasEffect i r (State.SameInputs r { s with wdata := d }) e)
    (hu : State.SameInputs r { s with wdata := d } { u with wdata := d })
    (ht : exec i { u with wdata := d } = .next t) : e.Leaves r u t := by
  obtain ⟨t', ht', htakes⟩ := h _ hu
  obtain rfl : t' = t := Host.Outcome.next.inj (ht'.symm.trans ht)
  exact htakes.leaves.of_wdata

/-- Settles O21: each command finds the same inputs in either order, so its effect is the same, and the two effects
commute. -/
theorem commandsToDifferentRegistersCommute : Obligations.CommandsToDifferentRegistersCommute := by
  intro i j ri rj di dj s a b c d hri hrj hne ha hb hc hd
  obtain ⟨ei, hi⟩ := exists_hasEffect { s with wdata := di } hri
  obtain ⟨ej, hj⟩ := exists_hasEffect { s with wdata := dj } hrj
  have hsa : ei.Leaves ri s a := hi.leaves ⟨rfl, rfl, rfl⟩ ha
  have hsc : ej.Leaves rj s c := hj.leaves ⟨rfl, rfl, rfl⟩ hc
  have hab : ej.Leaves rj a b := hj.leaves (hsa.sameInputs hne.symm dj) hb
  have hcd : ei.Leaves ri c d := hi.leaves (hsc.sameInputs hne di) hd
  obtain ⟨hregs, hfault⟩ := hsa.comm hab hsc hcd hne
  exact ⟨hregs, fun hquiet => hfault (hquiet.imp hsa.raised_eq_none hab.raised_eq_none)⟩

end Sys2Proof.Machine
end
